-- ==== Sys2Proof/Word.lean ====
section
/-! DEFINITION. The words of the machine: the bit vectors that the spec treats as bits, and register numbers. -/

namespace Sys2Proof

/-- A byte of memory or the contents of a general register (10_state.md R32, 20_memory.md R60). -/
abbrev Byte := BitVec 8

/-- Four bits of an opcode (00_scope.md R11). -/
abbrev Nibble := BitVec 4

/-- The operand `nnn`, and the contents of the index register `I` (00_scope.md R16, 10_state.md R35). -/
abbrev Addr12 := BitVec 12

/-- An opcode, and the contents of `PC` and `SP` (30_encoding.md R84, 10_state.md R36, R38). -/
abbrev Word := BitVec 16

/-- The number of a general register or of a key: 0 to 15 (10_state.md R32, R42). -/
abbrev RegIdx := Fin 16

/-- `VF`, the general register that doubles as the flag register (10_state.md R34). -/
abbrev VF : RegIdx := 15

end Sys2Proof
end

