-- ==== Sys2Proof/Config.lean ====
section
/-! DEFINITION. What is fixed for the machine: the fixed parameters of 00_scope.md R9, the parameters with a default
of R10 and 10_state.md R50, and the free values, which the spec leaves open and about which nothing can be proved. -/

namespace Sys2Proof

/-- The parameters FONT_BASE and FONT_DATA (10_state.md R31, R50; 93_implementation_defined.md I26). -/
structure Font where
  /-- FONT_BASE. -/
  base : Nat
  /-- FONT_DATA. -/
  data : List Byte
  deriving DecidableEq, Repr

/-- FONT_DATA has 80 bytes and lies in [0, 0x200) (R50). -/
def Font.wf (f : Font) : Bool := decide (f.base + 80 ≤ 0x200) && decide (f.data.length = 80)

namespace Config

/-! ### Fixed parameters (00_scope.md R9) -/

/-- MEM_SIZE: the bytes of the one address space. -/
abbrev memSize : Nat := 0x1000

/-- PROG_BASE: the first address of program space and the reset vector. -/
abbrev progBase : Nat := 0x200

/-- PROG_END, exclusive. -/
abbrev progEnd : Nat := 0xEA0

/-- STACK_BASE: the bottom of the call stack, inclusive. -/
abbrev stackBase : Nat := 0xEA0

/-- STACK_TOP: the top of the call stack, exclusive. -/
abbrev stackTop : Nat := 0xF00

/-- FB_BASE: the first byte of the framebuffer. -/
abbrev fbBase : Nat := 0xF00

/-- FB_SIZE: the bytes of the framebuffer. -/
abbrev fbSize : Nat := 256

/-- FB_ROW_BYTES: the bytes of one row of 64 pixels. -/
abbrev fbRowBytes : Nat := 8

/-- DISPLAY_H: the rows of the display. -/
abbrev displayRows : Nat := 32

/-! ### Parameters with a default (00_scope.md R10, 10_state.md R50, D18; log 10)

What depends on one takes it as an argument; these are the defaults, which `exec`, `step` and `State.reset` use. -/

/-- The default of FONT_BASE. -/
abbrev fontBase : Nat := 0x000

/-- Bytes of one glyph of the font. -/
abbrev glyphBytes : Nat := 5

/-- The default of FONT_DATA: 16 glyphs of 5 bytes, one sprite row a byte, the 4-pixel row in the high nibble (10_state.md R50). -/
def fontData : List Byte :=
  [0xF0, 0x90, 0x90, 0x90, 0xF0, 0x20, 0x60, 0x20, 0x20, 0x70] ++
  [0xF0, 0x10, 0xF0, 0x80, 0xF0, 0xF0, 0x10, 0xF0, 0x10, 0xF0] ++
  [0x90, 0x90, 0xF0, 0x10, 0x10, 0xF0, 0x80, 0xF0, 0x10, 0xF0] ++
  [0xF0, 0x80, 0xF0, 0x90, 0xF0, 0xF0, 0x10, 0x20, 0x40, 0x40] ++
  [0xF0, 0x90, 0xF0, 0x90, 0xF0, 0xF0, 0x90, 0xF0, 0x10, 0xF0] ++
  [0xF0, 0x90, 0xF0, 0x90, 0x90, 0xE0, 0x90, 0xE0, 0x90, 0xE0] ++
  [0xF0, 0x80, 0x80, 0x80, 0xF0, 0xE0, 0x90, 0x90, 0x90, 0xE0] ++
  [0xF0, 0x80, 0xF0, 0x80, 0xF0, 0xF0, 0x80, 0xF0, 0x80, 0x80]

/-- The default font. -/
abbrev font : Font := { base := fontBase, data := fontData }

/-! ### Free values: constants with no body -/

/-- TIMER_SCALE: the OPEN parameter of `Tick`, a non-negative rational in timer units per second (00_scope.md R10,
60_exceptions.md R228, D21; log 4). -/
opaque timerScale : NNRat

/-- The environment's choices for RND: the `k`-th draw of the run is made from `rngByte k` (00_scope.md R15,
41_register_alu.md R131, D11; log 3). -/
opaque rngByte : Nat → Byte

/-- What `Key[k]` is for a number `k` that is no key. Only GETK in its armed state could ask, in a state no run reaches
(42_keypad_timers.md R152, R157; DESIGN CHOICE, log 5). -/
opaque absentKey : Nat → Bool

end Config

/-- The parameters of the step relation and of the host's operations that have a value for a run (10_state.md R31);
the draws of RND are `Config.rngByte`. -/
structure Params where
  /-- FONT_BASE and FONT_DATA. -/
  font : Font
  /-- TIMER_SCALE. -/
  timerScale : NNRat

/-- The default font, and the open TIMER_SCALE. -/
def Config.params : Params := { font := Config.font, timerScale := Config.timerScale }

end Sys2Proof
end

