-- ==== Sys2Proof/Syntax.lean ====
section
/-! DEFINITION. The instructions: one constructor per row of spec/opcode_table.json, in the order of the opcode map of
30_encoding.md R86 to R90. Operands are decoded (00_scope.md R16): register numbers as `RegIdx`, immediates and
addresses as bit vectors, the sprite height of DRW as a count.

Bits that an encoding ignores (30_encoding.md R87, R91, R94) are kept as the last argument of their instruction. No
effect of an instruction depends on them; the fault record holds the whole opcode (60_exceptions.md R220), so a term
must not lose them (log 7). -/

namespace Sys2Proof

inductive Instr
  /-- `0x0?E0` CLS (R190); bits 11:8 ignored. -/
  | cls (ignored : Nibble)
  /-- `0x0?EE` RET (R103); bits 11:8 ignored. -/
  | ret (ignored : Nibble)
  /-- `0x1nnn` JP nnn (R100). -/
  | jp (nnn : Addr12)
  /-- `0x2nnn` CALL nnn (R102). -/
  | call (nnn : Addr12)
  /-- `0x3xnn` SE Vx, nn (R104). -/
  | seImm (x : RegIdx) (nn : Byte)
  /-- `0x4xnn` SNE Vx, nn (R105). -/
  | sneImm (x : RegIdx) (nn : Byte)
  /-- `0x5xy?` SE Vx, Vy (R106); bits 3:0 ignored. -/
  | seReg (x y : RegIdx) (ignored : Nibble)
  /-- `0x6xnn` LD Vx, nn (R120). -/
  | ldImm (x : RegIdx) (nn : Byte)
  /-- `0x7xnn` ADD Vx, nn (R121). -/
  | addImm (x : RegIdx) (nn : Byte)
  /-- `0x8xy0` LD Vx, Vy (R122). -/
  | ldReg (x y : RegIdx)
  /-- `0x8xy1` OR Vx, Vy (R123). -/
  | or (x y : RegIdx)
  /-- `0x8xy2` AND Vx, Vy (R124). -/
  | and (x y : RegIdx)
  /-- `0x8xy3` XOR Vx, Vy (R125). -/
  | xor (x y : RegIdx)
  /-- `0x8xy4` ADD Vx, Vy (R126). -/
  | add (x y : RegIdx)
  /-- `0x8xy5` SUB Vx, Vy (R127). -/
  | sub (x y : RegIdx)
  /-- `0x8x?6` SHR Vx (R128); bits 7:4 ignored. -/
  | shr (x : RegIdx) (ignored : Nibble)
  /-- `0x8xy7` SUBN Vx, Vy (R129). -/
  | subn (x y : RegIdx)
  /-- `0x8x?E` SHL Vx (R130); bits 7:4 ignored. -/
  | shl (x : RegIdx) (ignored : Nibble)
  /-- `0x9xy?` SNE Vx, Vy (R107); bits 3:0 ignored. -/
  | sneReg (x y : RegIdx) (ignored : Nibble)
  /-- `0xAnnn` LD I, nnn (R170). -/
  | ldI (nnn : Addr12)
  /-- `0xBnnn` JP V0, nnn (R101). -/
  | jpV0 (nnn : Addr12)
  /-- `0xCxnn` RND Vx, nn (R131). -/
  | rnd (x : RegIdx) (nn : Byte)
  /-- `0xDxyn` DRW Vx, Vy, n (R191); the height `n` is a count of rows, at most 15 in a well-formed instruction. -/
  | drw (x y : RegIdx) (n : Nat)
  /-- `0xEx9E` KEYD Vx (R150). -/
  | keyd (x : RegIdx)
  /-- `0xExA1` KEYU Vx (R151). -/
  | keyu (x : RegIdx)
  /-- `0xFx07` LD Vx, DT (R160). -/
  | ldVxDt (x : RegIdx)
  /-- `0xFx0A` GETK Vx (R154). -/
  | getk (x : RegIdx)
  /-- `0xFx15` LD DT, Vx (R161). -/
  | ldDtVx (x : RegIdx)
  /-- `0xFx18` LD ST, Vx (R162). -/
  | ldStVx (x : RegIdx)
  /-- `0xFx1E` ADD I, Vx (R171). -/
  | addI (x : RegIdx)
  /-- `0xFx29` LD F, Vx (R172). -/
  | ldF (x : RegIdx)
  /-- `0xFx33` BCD Vx (R173). -/
  | bcd (x : RegIdx)
  /-- `0xFx55` LD [I], Vx (R174): stores `V0` to `Vx`. -/
  | storeRegs (x : RegIdx)
  /-- `0xFx65` LD Vx, [I] (R175): loads `V0` to `Vx`. -/
  | loadRegs (x : RegIdx)
  deriving DecidableEq, Repr

end Sys2Proof
end

