-- ==== Sys2Proof/WellFormed.lean ====
section
/-! DEFINITION. Which instruction terms stand for an instruction of the machine. The types of `Instr` bound every
field but one: the height of DRW is a count, and the encoding gives it four bits (30_encoding.md R84, R85). -/

namespace Sys2Proof

/-- Every operand has a value that the encoding admits. -/
def Instr.wellFormed : Instr → Bool
  | .drw _ _ n => decide (n ≤ 15)
  | .cls _ | .ret _ | .jp _ | .call _ | .seImm _ _ | .sneImm _ _ | .seReg _ _ _ | .ldImm _ _ | .addImm _ _
  | .ldReg _ _ | .or _ _ | .and _ _ | .xor _ _ | .add _ _ | .sub _ _ | .shr _ _ | .subn _ _ | .shl _ _
  | .sneReg _ _ _ | .ldI _ | .jpV0 _ | .rnd _ _ | .keyd _ | .keyu _ | .ldVxDt _ | .getk _ | .ldDtVx _ | .ldStVx _
  | .addI _ | .ldF _ | .bcd _ | .storeRegs _ | .loadRegs _ => true

end Sys2Proof
end

