-- ==== Sys2Proof/Decode.lean ====
section
/-! DEFINITION. The decoder (30_encoding.md R82 to R92), total on any word and on any bytes and rejecting by name;
after it the encoder, written from the same tables (R84 to R90), and the opcode table itself as data. -/

namespace Sys2Proof

/-- Why a word or a byte string is no instruction. -/
inductive DecodeError
  /-- The word is one of the unknown encodings of 30_encoding.md R92. -/
  | unknownOpcode (op : Word)
  /-- Fewer than the two bytes of an instruction (R84). -/
  | truncated
  deriving DecidableEq, Repr

/-! ### Fields of an opcode (00_scope.md R16, 30_encoding.md R84) -/

/-- `op[15:12]`, the primary selector. -/
def opGroup (op : Word) : Nibble := op.extractLsb' 12 4

/-- `op[11:8]` as bits: ignored by group 0. -/
def opHi (op : Word) : Nibble := op.extractLsb' 8 4

/-- `op[7:4]` as bits: ignored by the shifts. -/
def opMid (op : Word) : Nibble := op.extractLsb' 4 4

/-- `n = op[3:0]`. -/
def opN (op : Word) : Nibble := op.extractLsb' 0 4

/-- `x = op[11:8]`. -/
def opX (op : Word) : RegIdx := (opHi op).toFin

/-- `y = op[7:4]`. -/
def opY (op : Word) : RegIdx := (opMid op).toFin

/-- `nn = op[7:0]`, also the selector of groups 0x0, 0xE and 0xF. -/
def opNN (op : Word) : Byte := op.extractLsb' 0 8

/-- `nnn = op[11:0]`. -/
def opNNN (op : Word) : Addr12 := op.extractLsb' 0 12

/-! ### The decoder -/

/-- Group 0x0: secondary match on the low byte, bits 11:8 not examined (30_encoding.md R87). -/
def decode0 (op : Word) : Except DecodeError Instr :=
  if opNN op = 0xE0 then .ok (.cls (opHi op))
  else if opNN op = 0xEE then .ok (.ret (opHi op))
  else .error (.unknownOpcode op)

/-- Group 0x8: secondary match on the low nibble (30_encoding.md R88). -/
def decode8 (op : Word) : Except DecodeError Instr :=
  if opN op = 0x0 then .ok (.ldReg (opX op) (opY op))
  else if opN op = 0x1 then .ok (.or (opX op) (opY op))
  else if opN op = 0x2 then .ok (.and (opX op) (opY op))
  else if opN op = 0x3 then .ok (.xor (opX op) (opY op))
  else if opN op = 0x4 then .ok (.add (opX op) (opY op))
  else if opN op = 0x5 then .ok (.sub (opX op) (opY op))
  else if opN op = 0x6 then .ok (.shr (opX op) (opMid op))
  else if opN op = 0x7 then .ok (.subn (opX op) (opY op))
  else if opN op = 0xE then .ok (.shl (opX op) (opMid op))
  else .error (.unknownOpcode op)

/-- Group 0xE: secondary match on the low byte (30_encoding.md R89). -/
def decodeE (op : Word) : Except DecodeError Instr :=
  if opNN op = 0x9E then .ok (.keyd (opX op))
  else if opNN op = 0xA1 then .ok (.keyu (opX op))
  else .error (.unknownOpcode op)

/-- Group 0xF: secondary match on the low byte (30_encoding.md R90). -/
def decodeF (op : Word) : Except DecodeError Instr :=
  if opNN op = 0x07 then .ok (.ldVxDt (opX op))
  else if opNN op = 0x0A then .ok (.getk (opX op))
  else if opNN op = 0x15 then .ok (.ldDtVx (opX op))
  else if opNN op = 0x18 then .ok (.ldStVx (opX op))
  else if opNN op = 0x1E then .ok (.addI (opX op))
  else if opNN op = 0x29 then .ok (.ldF (opX op))
  else if opNN op = 0x33 then .ok (.bcd (opX op))
  else if opNN op = 0x55 then .ok (.storeRegs (opX op))
  else if opNN op = 0x65 then .ok (.loadRegs (opX op))
  else .error (.unknownOpcode op)

/-- Decode: the primary match on the top nibble (30_encoding.md R82, R86). Total: every word yields one instruction
or the verdict "unknown opcode" (R83). -/
def decode (op : Word) : Except DecodeError Instr :=
  if opGroup op = 0x0 then decode0 op
  else if opGroup op = 0x1 then .ok (.jp (opNNN op))
  else if opGroup op = 0x2 then .ok (.call (opNNN op))
  else if opGroup op = 0x3 then .ok (.seImm (opX op) (opNN op))
  else if opGroup op = 0x4 then .ok (.sneImm (opX op) (opNN op))
  else if opGroup op = 0x5 then .ok (.seReg (opX op) (opY op) (opN op))
  else if opGroup op = 0x6 then .ok (.ldImm (opX op) (opNN op))
  else if opGroup op = 0x7 then .ok (.addImm (opX op) (opNN op))
  else if opGroup op = 0x8 then decode8 op
  else if opGroup op = 0x9 then .ok (.sneReg (opX op) (opY op) (opN op))
  else if opGroup op = 0xA then .ok (.ldI (opNNN op))
  else if opGroup op = 0xB then .ok (.jpV0 (opNNN op))
  else if opGroup op = 0xC then .ok (.rnd (opX op) (opNN op))
  else if opGroup op = 0xD then .ok (.drw (opX op) (opY op) (opN op).toNat)
  else if opGroup op = 0xE then decodeE op
  else decodeF op

/-- The word of two bytes in memory order: big-endian (20_memory.md R64). -/
def wordOfBytes (hi lo : Byte) : Word := hi ++ lo

/-- Decode from a byte string: the first instruction and the bytes after it. -/
def decodeBytes : List Byte → Except DecodeError (Instr × List Byte)
  | hi :: lo :: rest =>
    match decode (wordOfBytes hi lo) with
    | .ok i => .ok (i, rest)
    | .error e => .error e
  | _ => .error .truncated

/-- The word that the opcode table numbers as `w` in `nbits` bits; every bit above is 0. The one instruction length
is 16 bits (30_encoding.md R84). -/
def tableWord (nbits w : Nat) : Word := BitVec.ofNat 16 (w % 2 ^ nbits)

/-- The instruction the decoder reads from the bytes of a table word, laid out as memory stores them. -/
def decodeTableWord (nbits w : Nat) : Option Instr :=
  match decodeBytes [(tableWord nbits w).extractLsb' 8 8, (tableWord nbits w).extractLsb' 0 8] with
  | .ok (i, _) => some i
  | .error _ => none

/-! ### The encoder -/

/-- Form `NNN` of 30_encoding.md R84. -/
def packNNN (group : Nibble) (nnn : Addr12) : Word := group ++ nnn

/-- Form `XNN`, and form `X--` with its selector byte as `nn`. -/
def packXNN (group : Nibble) (x : RegIdx) (nn : Byte) : Word := group ++ (BitVec.ofFin (w := 4) x ++ nn : Addr12)

/-- Form `----`: a selector byte under four ignored bits. -/
def packSel (group : Nibble) (ignored : Nibble) (sel : Byte) : Word := group ++ (ignored ++ sel : Addr12)

/-- Forms `XY-` and `XYN`, with the four bits 7:4 given as bits. -/
def packXMN (group : Nibble) (x : RegIdx) (mid n : Nibble) : Word :=
  group ++ (BitVec.ofFin (w := 4) x ++ (mid ++ n : Byte) : Addr12)

/-- Forms `XY-` and `XYN`. -/
def packXYN (group : Nibble) (x y : RegIdx) (n : Nibble) : Word := packXMN group x (BitVec.ofFin (w := 4) y) n

/-- The word of an instruction (30_encoding.md R86 to R91). -/
def encode : Instr → Word
  | .cls h => packSel 0x0 h 0xE0
  | .ret h => packSel 0x0 h 0xEE
  | .jp nnn => packNNN 0x1 nnn
  | .call nnn => packNNN 0x2 nnn
  | .seImm x nn => packXNN 0x3 x nn
  | .sneImm x nn => packXNN 0x4 x nn
  | .seReg x y l => packXYN 0x5 x y l
  | .ldImm x nn => packXNN 0x6 x nn
  | .addImm x nn => packXNN 0x7 x nn
  | .ldReg x y => packXYN 0x8 x y 0x0
  | .or x y => packXYN 0x8 x y 0x1
  | .and x y => packXYN 0x8 x y 0x2
  | .xor x y => packXYN 0x8 x y 0x3
  | .add x y => packXYN 0x8 x y 0x4
  | .sub x y => packXYN 0x8 x y 0x5
  | .shr x m => packXMN 0x8 x m 0x6
  | .subn x y => packXYN 0x8 x y 0x7
  | .shl x m => packXMN 0x8 x m 0xE
  | .sneReg x y l => packXYN 0x9 x y l
  | .ldI nnn => packNNN 0xA nnn
  | .jpV0 nnn => packNNN 0xB nnn
  | .rnd x nn => packXNN 0xC x nn
  | .drw x y n => packXYN 0xD x y (BitVec.ofNat 4 n)
  | .keyd x => packXNN 0xE x 0x9E
  | .keyu x => packXNN 0xE x 0xA1
  | .ldVxDt x => packXNN 0xF x 0x07
  | .getk x => packXNN 0xF x 0x0A
  | .ldDtVx x => packXNN 0xF x 0x15
  | .ldStVx x => packXNN 0xF x 0x18
  | .addI x => packXNN 0xF x 0x1E
  | .ldF x => packXNN 0xF x 0x29
  | .bcd x => packXNN 0xF x 0x33
  | .storeRegs x => packXNN 0xF x 0x55
  | .loadRegs x => packXNN 0xF x 0x65

/-! ### The opcode table as data -/

/-- A row of spec/opcode_table.json: a word belongs to it when `word AND mask = value`. -/
structure OpcodeRow where
  value : Word
  mask : Word
  deriving DecidableEq, Repr

/-- The row of an instruction. -/
def Instr.row : Instr → OpcodeRow
  | .cls _ => ⟨0x00E0, 0xF0FF⟩
  | .ret _ => ⟨0x00EE, 0xF0FF⟩
  | .jp _ => ⟨0x1000, 0xF000⟩
  | .call _ => ⟨0x2000, 0xF000⟩
  | .seImm _ _ => ⟨0x3000, 0xF000⟩
  | .sneImm _ _ => ⟨0x4000, 0xF000⟩
  | .seReg _ _ _ => ⟨0x5000, 0xF000⟩
  | .ldImm _ _ => ⟨0x6000, 0xF000⟩
  | .addImm _ _ => ⟨0x7000, 0xF000⟩
  | .ldReg _ _ => ⟨0x8000, 0xF00F⟩
  | .or _ _ => ⟨0x8001, 0xF00F⟩
  | .and _ _ => ⟨0x8002, 0xF00F⟩
  | .xor _ _ => ⟨0x8003, 0xF00F⟩
  | .add _ _ => ⟨0x8004, 0xF00F⟩
  | .sub _ _ => ⟨0x8005, 0xF00F⟩
  | .shr _ _ => ⟨0x8006, 0xF00F⟩
  | .subn _ _ => ⟨0x8007, 0xF00F⟩
  | .shl _ _ => ⟨0x800E, 0xF00F⟩
  | .sneReg _ _ _ => ⟨0x9000, 0xF000⟩
  | .ldI _ => ⟨0xA000, 0xF000⟩
  | .jpV0 _ => ⟨0xB000, 0xF000⟩
  | .rnd _ _ => ⟨0xC000, 0xF000⟩
  | .drw _ _ _ => ⟨0xD000, 0xF000⟩
  | .keyd _ => ⟨0xE09E, 0xF0FF⟩
  | .keyu _ => ⟨0xE0A1, 0xF0FF⟩
  | .ldVxDt _ => ⟨0xF007, 0xF0FF⟩
  | .getk _ => ⟨0xF00A, 0xF0FF⟩
  | .ldDtVx _ => ⟨0xF015, 0xF0FF⟩
  | .ldStVx _ => ⟨0xF018, 0xF0FF⟩
  | .addI _ => ⟨0xF01E, 0xF0FF⟩
  | .ldF _ => ⟨0xF029, 0xF0FF⟩
  | .bcd _ => ⟨0xF033, 0xF0FF⟩
  | .storeRegs _ => ⟨0xF055, 0xF0FF⟩
  | .loadRegs _ => ⟨0xF065, 0xF0FF⟩

/-- The word belongs to the row. -/
abbrev OpcodeRow.matches (r : OpcodeRow) (op : Word) : Prop := op &&& r.mask = r.value

end Sys2Proof
end

