-- ==== Sys2Proof/Machine/State.lean ====
section
/-! DEFINITION. The state of the machine (10_state.md R30), the faults of 60_exceptions.md R210, the refusals, and the
state right after reset (10_state.md R48). -/

namespace Sys2Proof.Machine

/-- The faults of 60_exceptions.md R210, each with its information value. A fault ends its step (R226) and the machine
TAKES it: the step answers a next state that is the old one with `halted` set and the fault recorded (`takeFault`,
R219, R220), so no step of the model answers `Outcome.fault` (log 1). Safe: the spec gives each of them this effect. -/
inductive Fault
  /-- Code 1, raised by the fetch of any step when `PC` is outside program space (R211). Safe: taken, never guessed. -/
  | fetchOutOfRange (pc : Word)
  /-- Code 2, raised by decode on a word of no instruction (R212). Safe: taken, never repaired. -/
  | unknownOpcode (op : Word)
  /-- Code 3, raised by CALL on a full stack (R213). Safe: taken. -/
  | stackOverflow (sp : Word)
  /-- Code 4, raised by RET on an empty stack (R214). Safe: taken. -/
  | stackUnderflow (sp : Word)
  /-- Code 5, raised by LD F,Vx when `V[x] > 15` (R215). Safe: taken. -/
  | fontIndexOutOfRange (v : Byte)
  /-- Code 6, raised by KEYD and KEYU when `V[x] > 15` (R216). Safe: taken. -/
  | keyIndexOutOfRange (v : Byte)
  /-- Code 7, raised by a data access above 0xFFF, in DRW, BCD, LD [I],Vx and LD Vx,[I] (R217). Safe: taken. -/
  | memoryOutOfRange (a : Nat)
  /-- Code 8, raised by RND with `nn = 0` (R218). Safe: taken. -/
  | randomModulusZero (nn : Byte)
  deriving DecidableEq, Repr

/-- Why an operation of the host, or an instruction without a meaning, is not performed. -/
inductive Refusal
  /-- Raised by `exec` alone, for an instruction not modelled yet; no arm raises it. Safe: nothing runs. -/
  | notModelled (mnemonic : String)
  /-- Raised by `Reset(image)` when the image has more than 3232 bytes (70_reset_and_hazards.md R253). Safe: the spec
  refuses it, and no state follows. -/
  | imageTooLong (length : Nat)
  /-- Raised by `Tick(dt)` when `dt < 0` (60_exceptions.md R228). Safe: the spec refuses it. -/
  | negativeElapsedTime (dt : Rat)
  /-- Raised by `SetKey(k, pressed)` when `k > 15` (60_exceptions.md R230). Safe: the spec refuses it. -/
  | keyNumberOutOfRange (k : Nat)
  deriving DecidableEq, Repr

/-- The fault record (10_state.md R45, 60_exceptions.md R220). The code and the information are `Fault.code` and
`Fault.info` of `fault`. -/
structure FaultRecord where
  /-- The fault with its information value. -/
  fault : Fault
  /-- `PC` at the start of the step. -/
  pc : Word
  /-- The opcode of the faulting instruction; `none` when the fetch itself faulted. -/
  opcode : Option Word
  deriving DecidableEq, Repr

/-- The contents of memory that differ from its reset contents: addresses strictly rising, no entry equal to what an
unlisted address reads as (`Memory.wf`). -/
abbrev Memory := List Host.Cell

structure State where
  /-- `memory`, 4096 bytes (R60). -/
  mem : Memory
  /-- `V[0..15]` (R32). -/
  v : Vector Byte 16
  /-- `I` (R35). -/
  i : Addr12
  /-- `PC` (R36). -/
  pc : Word
  /-- `SP` (R38). -/
  sp : Word
  /-- `DT`, an exact non-negative rational (R40). -/
  dt : Rat
  /-- `ST`, an exact non-negative rational (R40, R41). -/
  st : Rat
  /-- `Key[0..15]`, true = pressed (R42). -/
  keys : Vector Bool 16
  /-- `blocked` (R43). -/
  blocked : Bool
  /-- `waiting_release` (R43). -/
  waitingRelease : Bool
  /-- `halted` (R45). -/
  halted : Bool
  /-- `display_changed` (R44). -/
  displayChanged : Bool
  /-- `fault` (R45). -/
  fault : Option FaultRecord
  /-- The model's own field: how many draws RND has made, which selects the next free value (log 3). -/
  draws : Nat
  deriving DecidableEq, Repr

/-- The machine right after reset with no program image (10_state.md R48, 70_reset_and_hazards.md R251): memory lists
nothing, so every byte reads as its reset contents. `draws` is the model's own field (DESIGN CHOICE, log 3). -/
def State.reset : State where
  mem := []
  v := Vector.replicate 16 0
  i := 0
  pc := 0x200
  sp := 0xF00
  dt := 0
  st := 0
  keys := Vector.replicate 16 false
  blocked := false
  waitingRelease := false
  halted := false
  displayChanged := false
  fault := none
  draws := 0

end Sys2Proof.Machine
end

