-- ==== Sys2Proof/Machine/Ops.lean ====
section
/-! DEFINITION. The shared operations: memory and its canonical form, registers, fetch, the way an instruction ends,
and TAKING A FAULT, the one exception mechanism of the machine. The spec gives no return from it: there is no handler
and no trap return (60_exceptions.md R210, R221). -/

namespace Sys2Proof.Machine

/-! ### Memory as data -/

/-- What an address that memory does not list reads as: its contents right after reset with the default font (10_state.md
R48, 70_reset_and_hazards.md R251). It is how a memory is written down, whatever font a run has (log 9). -/
def Memory.unlisted (a : Nat) : Byte :=
  if Config.fontBase ≤ a ∧ a < Config.fontBase + 16 * Config.glyphBytes then Config.fontData.getD (a - Config.fontBase) 0
  else 0

/-- The byte at an address, with no bounds check. -/
def Memory.read : Memory → Nat → Byte
  | [], a => Memory.unlisted a
  | (k, b) :: m, a => if k = a then b else Memory.read m a

/-- Memory with the byte at `a` replaced, in canonical form, with no bounds check. -/
def Memory.write : Memory → Nat → Byte → Memory
  | [], a, b => if b = Memory.unlisted a then [] else [(a, b)]
  | (k, c) :: m, a, b =>
    if a < k then (if b = Memory.unlisted a then (k, c) :: m else (a, b) :: (k, c) :: m)
    else if a = k then (if b = Memory.unlisted a then m else (a, b) :: m)
    else (k, c) :: Memory.write m a b

/-- Memory with consecutive bytes replaced, ascending from `a`. -/
def Memory.writeAll : Memory → Nat → List Byte → Memory
  | m, _, [] => m
  | m, a, b :: bs => Memory.writeAll (Memory.write m a b) (a + 1) bs

/-- Every listed address is at least `lo` and they rise strictly; no entry says what an unlisted address says; every
address exists. -/
def Memory.wfFrom : Nat → Memory → Bool
  | _, [] => true
  | lo, (k, b) :: m => decide (lo ≤ k) && decide (k < Config.memSize) && decide (b ≠ Memory.unlisted k) &&
      Memory.wfFrom (k + 1) m

/-- The canonical form of a memory. -/
def Memory.wf (m : Memory) : Bool := Memory.wfFrom 0 m

/-! ### The contents of memory at reset (70_reset_and_hazards.md R251, R253) -/

/-- All 4096 bytes 0x00 (R251, 1): a memory that lists the bytes where the default font is not 0x00. -/
@[irreducible] def Memory.zeroed : Memory :=
  Memory.writeAll [] Config.fontBase (List.replicate Config.fontData.length 0)

/-- The contents right after `Reset(image)` with a font: zeroes, then FONT_DATA at FONT_BASE, then the image (R251). -/
@[irreducible] def Memory.loaded (font : Font) (image : List Byte) : Memory :=
  Memory.writeAll (Memory.writeAll Memory.zeroed font.base font.data) Config.progBase image

/-! ### Memory primitives (00_scope.md R14, 20_memory.md R66) -/

/-- The byte of the state's memory at an address, with no bounds check. -/
def State.byte (s : State) (a : Nat) : Byte := Memory.read s.mem a

/-- The two bytes at `a`, big-endian, with no bounds check (R64). -/
def State.word (s : State) (a : Nat) : Word := wordOfBytes (s.byte a) (s.byte (a + 1))

/-- `MemRead(a, 1)`. -/
def memRead (a : Nat) (s : State) : Except Fault Byte :=
  if a + 1 ≤ Config.memSize then .ok (s.byte a) else .error (.memoryOutOfRange a)

/-- `MemWrite(a, 1, b)`. -/
def memWrite (a : Nat) (b : Byte) (s : State) : Except Fault State :=
  if a + 1 ≤ Config.memSize then .ok { s with mem := Memory.write s.mem a b } else .error (.memoryOutOfRange a)

/-- `MemRead(a, 2)`: both bytes are checked first, and the fault names `a` (R14; log 12). -/
def memRead2 (a : Nat) (s : State) : Except Fault Word :=
  if a + 2 ≤ Config.memSize then .ok (s.word a) else .error (.memoryOutOfRange a)

/-- `MemWrite(a, 2, w)`: `w[15:8]` at `a`, `w[7:0]` at `a + 1`; checked as `memRead2` is. -/
def memWrite2 (a : Nat) (w : Word) (s : State) : Except Fault State :=
  if a + 2 ≤ Config.memSize then
    .ok { s with mem := Memory.writeAll s.mem a [w.extractLsb' 8 8, w.extractLsb' 0 8] }
  else .error (.memoryOutOfRange a)

/-- `MemWrite` of consecutive bytes, one at a time in ascending order: CLS, BCD, LD [I],Vx (20_memory.md R68). -/
def storeBytes : Nat → List Byte → State → Except Fault State
  | _, [], s => .ok s
  | a, b :: bs, s =>
    match memWrite a b s with
    | .ok t => storeBytes (a + 1) bs t
    | .error f => .error f

/-- `MemRead` of `n` consecutive bytes, one at a time in ascending order: LD Vx,[I] (20_memory.md R68). -/
def loadBytes : Nat → Nat → State → Except Fault (List Byte)
  | _, 0, _ => .ok []
  | a, n + 1, s =>
    match memRead a s with
    | .ok b =>
      match loadBytes (a + 1) n s with
      | .ok bs => .ok (b :: bs)
      | .error f => .error f
    | .error f => .error f

/-! ### Registers (00_scope.md R13) -/

/-- `V[x]`. -/
def State.getV (s : State) (x : RegIdx) : Byte := s.v[x.val]

/-- `V[x] <- b`. -/
def State.setV (s : State) (x : RegIdx) (b : Byte) : State := { s with v := s.v.set x.val b }

/-- `V[k], V[k+1], … <- bs`, in ascending order; there is no register above `V[15]`. -/
def setRegs : Nat → List Byte → Vector Byte 16 → Vector Byte 16
  | _, [], v => v
  | k, b :: bs, v => setRegs (k + 1) bs (v.setIfInBounds k b)

/-- `Key[k]` for any number. A number above 15 is no key (42_keypad_timers.md R152): the value is free (log 5). -/
def State.keyAt (s : State) (k : Nat) : Bool :=
  if h : k < 16 then s.keys[k] else Config.absentKey k

/-! ### Program counter (10_state.md R37) -/

/-- `PC <- PC + 2`: the fetch advance, and a skip. -/
def State.advancePc (s : State) : State := { s with pc := s.pc + 2 }

/-- `PC <- PC - 2` in the execute phase: the instruction runs again in the next step (R37, R154). -/
def State.repeatInstr (s : State) : State := { s with pc := s.pc - 2 }

/-- `if c: PC <- PC + 2` (00_scope.md R15 `skip`). -/
def State.skipIf (c : Bool) (s : State) : State := if c then s.advancePc else s

/-! ### Faults -/

/-- The code of a fault (60_exceptions.md R210). -/
def Fault.code : Fault → Nat
  | .fetchOutOfRange _ => 1
  | .unknownOpcode _ => 2
  | .stackOverflow _ => 3
  | .stackUnderflow _ => 4
  | .fontIndexOutOfRange _ => 5
  | .keyIndexOutOfRange _ => 6
  | .memoryOutOfRange _ => 7
  | .randomModulusZero _ => 8

/-- The information value of a fault (60_exceptions.md R210). -/
def Fault.info : Fault → Nat
  | .fetchOutOfRange pc => pc.toNat
  | .unknownOpcode op => op.toNat
  | .stackOverflow sp => sp.toNat
  | .stackUnderflow sp => sp.toNat
  | .fontIndexOutOfRange v => v.toNat
  | .keyIndexOutOfRange v => v.toNat
  | .memoryOutOfRange a => a
  | .randomModulusZero nn => nn.toNat

/-- TAKING A FAULT (60_exceptions.md R219, R220, R226). `s` is the state at the start of the step, so everything the
step did is discarded; the core halts and records the fault, the `PC` of the instruction and its opcode. -/
def takeFault (f : Fault) (opcode : Option Word) (s : State) : State :=
  { s with halted := true, fault := some ⟨f, s.pc, opcode⟩ }

/-- The execute phase of an instruction that raises no fault. `s` is the state at the start of the step; `body` runs
with `PC` at the instruction's address + 2 (10_state.md R37). -/
def complete (body : State → State) (s : State) : Host.Outcome State Fault Refusal :=
  .next (body s.advancePc)

/-- The execute phase of an instruction `i` that may raise a fault, which is then taken on the state at the start of
the step (60_exceptions.md R226). -/
def attempt (i : Instr) (body : State → Except Fault State) (s : State) : Host.Outcome State Fault Refusal :=
  match body s.advancePc with
  | .ok t => .next t
  | .error f => .next (takeFault f (some (encode i)) s)

/-! ### Fetch (30_encoding.md R81) -/

/-- Both bytes at `PC` lie in program space. -/
def State.fetchable (s : State) : Bool :=
  decide (Config.progBase ≤ s.pc.toNat) && decide (s.pc.toNat + 2 ≤ Config.progEnd)

/-- Fetch: the range check of program space, then the opcode at `PC`. The advance of `PC` is `State.advancePc`, made
by `complete` and `attempt`. -/
def fetch (s : State) : Except Fault Word :=
  if s.fetchable then memRead2 s.pc.toNat s else .error (.fetchOutOfRange s.pc)

end Sys2Proof.Machine
end

