-- ==== Sys2Proof/Machine/Operands.lean ====
section
/-! DEFINITION. The operand forms: how an instruction turns its fields and the registers into a value, a target, a key,
a glyph or a memory address (30_encoding.md R85, 43_memory_index.md). All fields are zero-extended. -/

namespace Sys2Proof.Machine

/-- An address operand as a jump target (40_flow_control.md R100). -/
def target (nnn : Addr12) : Word := nnn.zeroExtend 16

/-- The indexed target `V[0] + nnn`, exact in 16 bits (40_flow_control.md R101). -/
def indexedTarget (nnn : Addr12) (s : State) : Word := (s.getV 0).zeroExtend 16 + nnn.zeroExtend 16

/-- Register-indirect with offset: the address `I + k`, not reduced (20_memory.md R66). -/
def State.indexAddr (s : State) (k : Nat) : Nat := s.i.toNat + k

/-- A key index from a register: valid only in 0 to 15 (42_keypad_timers.md R150, R152). -/
def keyOperand (x : RegIdx) (s : State) : Except Fault Nat :=
  if (s.getV x).toNat > 15 then .error (.keyIndexOutOfRange (s.getV x)) else .ok (s.getV x).toNat

/-- The glyph address of the digit in a register, in a font at `base`: valid only for 0 to 15 (43_memory_index.md
R172). -/
def glyphOperand (base : Nat) (x : RegIdx) (s : State) : Except Fault Addr12 :=
  if (s.getV x).toNat > 15 then .error (.fontIndexOutOfRange (s.getV x))
  else .ok (BitVec.ofNat 12 (base + Config.glyphBytes * (s.getV x).toNat))

/-- The registers `V[0]` to `V[x]` as bytes, ascending (43_memory_index.md R174). -/
def regsUpTo (x : RegIdx) (s : State) : List Byte := s.v.toList.take (x.val + 1)

/-- The lowest pressed key, if any key is pressed (42_keypad_timers.md R154). -/
def lowestPressed (s : State) : Option RegIdx := (List.finRange 16).find? fun k => s.keys[k.val]

/-- Hundreds, tens and ones of a byte (43_memory_index.md R173). -/
def decimalDigits (b : Byte) : List Byte :=
  [BitVec.ofNat 8 (b.toNat / 100), BitVec.ofNat 8 (b.toNat / 10 % 10), BitVec.ofNat 8 (b.toNat % 10)]

/-- The delay timer truncated to an integer (42_keypad_timers.md R160); at most 255 in every state a run reaches
(log 6). -/
def truncated (t : Rat) : Byte := BitVec.ofInt 8 t.floor

/-- A register as a timer value: an integer, exactly (42_keypad_timers.md R161, R162). -/
def timerValue (b : Byte) : Rat := (b.toNat : Rat)

/-- A draw of `draw(0, nn - 1)`, for `nn` not 0: the next free value, brought into range (41_register_alu.md R131;
log 3). -/
def drawnByte (nn : Byte) (s : State) : Byte := BitVec.ofNat 8 ((Config.rngByte s.draws).toNat % nn.toNat)

/-- The row of the display for row `k` of a sprite at `cy`: vertical wrap (44_display.md R191, R197). -/
def spriteRow (cy : Byte) (k : Nat) : Nat := (cy.toNat + k) % Config.displayRows

/-- The framebuffer address of the first byte that row `k` of a sprite at `(cx, cy)` touches: linear, neither wrapped
nor clipped (44_display.md R191, R194). -/
def spriteAddr (cx cy : Byte) (k : Nat) : Nat :=
  Config.fbBase + Config.fbRowBytes * spriteRow cy k + cx.toNat / 8

/-- Bit reversal (44_display.md R192). -/
def rev8 (b : Byte) : Byte := b.reverse

end Sys2Proof.Machine
end

