-- ==== Sys2Proof/Machine/Flags.lean ====
section
/-! DEFINITION. The flag computations: what the instructions of 10_state.md R34 write to `VF`, and the status word of
R46, the only other place flags are read. -/

namespace Sys2Proof.Machine

/-- A condition as a flag value, 1 or 0. -/
def flagByte (c : Bool) : Byte := if c then 1 else 0

/-- Carry of ADD Vx,Vy: the exact sum exceeds 255 (41_register_alu.md R126). -/
def carryFlag (a b : Byte) : Byte := flagByte (decide (a.toNat + b.toNat > 255))

/-- "No borrow" of `a - b` (41_register_alu.md R127, R129). -/
def noBorrowFlag (a b : Byte) : Byte := flagByte (decide (a.toNat ≥ b.toNat))

/-- The bit SHR shifts out (41_register_alu.md R128). -/
def lowBitFlag (a : Byte) : Byte := flagByte (a.getLsbD 0)

/-- The bit SHL shifts out (41_register_alu.md R130). -/
def highBitFlag (a : Byte) : Byte := flagByte (a.getLsbD 7)

/-- A pixel that was on is turned off (44_display.md R193, R195). -/
def collides (old pattern : Byte) : Bool := (old &&& pattern) != 0

/-- `sound_active` (10_state.md R41). -/
def State.soundActive (s : State) : Bool := decide (0 < s.st)

/-- FAULT_CODE of the status word: 0 = none (10_state.md R46). -/
def State.faultCode (s : State) : Nat :=
  match s.fault with
  | none => 0
  | some r => r.fault.code

/-- The status word (10_state.md R46): bit 0 HALTED, 1 BLOCKED, 2 WAITING_RELEASE, 3 DISPLAY_CHANGED, 4 SOUND_ACTIVE,
11:8 FAULT_CODE, all others 0. -/
def State.statusWord (s : State) : Word :=
  (0 : Nibble) ++ BitVec.ofNat 4 s.faultCode ++ (0 : BitVec 3) ++ BitVec.ofBool s.soundActive ++
    BitVec.ofBool s.displayChanged ++ BitVec.ofBool s.waitingRelease ++ BitVec.ofBool s.blocked ++
    BitVec.ofBool s.halted

end Sys2Proof.Machine
end

