-- ==== Sys2Proof/Machine/Alu.lean ====
section
/-! DEFINITION. Register loads, arithmetic, logic, shifts and random (41_register_alu.md). Where an instruction writes
`V[x]` and `VF`, the writes stand in the order the rule gives, which decides the case `x = 15` (D8, D9). -/

namespace Sys2Proof.Machine

/-- LD Vx, nn (R120). -/
def execLdImm (x : RegIdx) (nn : Byte) : State → Host.Outcome State Fault Refusal :=
  complete fun s => s.setV x nn

/-- ADD Vx, nn (R121): no flag. -/
def execAddImm (x : RegIdx) (nn : Byte) : State → Host.Outcome State Fault Refusal :=
  complete fun s => s.setV x (s.getV x + nn)

/-- LD Vx, Vy (R122). -/
def execLdReg (x y : RegIdx) : State → Host.Outcome State Fault Refusal :=
  complete fun s => s.setV x (s.getV y)

/-- OR Vx, Vy (R123): `VF` is not reset. -/
def execOr (x y : RegIdx) : State → Host.Outcome State Fault Refusal :=
  complete fun s => s.setV x (s.getV x ||| s.getV y)

/-- AND Vx, Vy (R124). -/
def execAnd (x y : RegIdx) : State → Host.Outcome State Fault Refusal :=
  complete fun s => s.setV x (s.getV x &&& s.getV y)

/-- XOR Vx, Vy (R125). -/
def execXor (x y : RegIdx) : State → Host.Outcome State Fault Refusal :=
  complete fun s => s.setV x (s.getV x ^^^ s.getV y)

/-- ADD Vx, Vy (R126): the destination, then the carry. -/
def execAdd (x y : RegIdx) : State → Host.Outcome State Fault Refusal :=
  complete fun s => (s.setV x (s.getV x + s.getV y)).setV VF (carryFlag (s.getV x) (s.getV y))

/-- SUB Vx, Vy (R127): the destination, then "no borrow". -/
def execSub (x y : RegIdx) : State → Host.Outcome State Fault Refusal :=
  complete fun s => (s.setV x (s.getV x - s.getV y)).setV VF (noBorrowFlag (s.getV x) (s.getV y))

/-- SUBN Vx, Vy (R129): as SUB with the operands swapped. -/
def execSubn (x y : RegIdx) : State → Host.Outcome State Fault Refusal :=
  complete fun s => (s.setV x (s.getV y - s.getV x)).setV VF (noBorrowFlag (s.getV y) (s.getV x))

/-- The execute phase of SHR Vx (R128): the flag first, then `V[x]` is read again and shifted. -/
def shrBody (x : RegIdx) (s : State) : State :=
  let t := s.setV VF (lowBitFlag (s.getV x))
  t.setV x (t.getV x >>> 1)

/-- SHR Vx (R128). -/
def execShr (x : RegIdx) : State → Host.Outcome State Fault Refusal :=
  complete (shrBody x)

/-- The execute phase of SHL Vx (R130): the flag first, then `V[x]` is read again and shifted. -/
def shlBody (x : RegIdx) (s : State) : State :=
  let t := s.setV VF (highBitFlag (s.getV x))
  t.setV x (t.getV x <<< 1)

/-- SHL Vx (R130). -/
def execShl (x : RegIdx) : State → Host.Outcome State Fault Refusal :=
  complete (shlBody x)

/-- The execute phase of RND Vx, nn (R131): one draw, made afresh at each execution. -/
def rndBody (x : RegIdx) (nn : Byte) (s : State) : Except Fault State :=
  if nn = 0 then .error (.randomModulusZero nn)
  else .ok { s.setV x (drawnByte nn s) with draws := s.draws + 1 }

/-- RND Vx, nn (R131). -/
def execRnd (x : RegIdx) (nn : Byte) : State → Host.Outcome State Fault Refusal :=
  attempt (.rnd x nn) (rndBody x nn)

end Sys2Proof.Machine
end

