-- ==== Sys2Proof/Machine/Display.lean ====
section
/-! DEFINITION. Clear and sprite blit (44_display.md). -/

namespace Sys2Proof.Machine

/-- The execute phase of CLS (R190). -/
def clsBody (s : State) : Except Fault State :=
  match storeBytes Config.fbBase (List.replicate Config.fbSize 0) s with
  | .ok t => .ok { t with displayChanged := true }
  | .error f => .error f

/-- CLS (R190). The ignored bits could reach only a fault record, and CLS raises no fault. -/
def execCls (ignored : Nibble) : State → Host.Outcome State Fault Refusal :=
  attempt (.cls ignored) clsBody

/-- A blit in progress: the state so far, and whether a pixel has been turned off. -/
structure Drawing where
  st : State
  coll : Bool
  deriving DecidableEq, Repr

/-- `blit(a, p)`: XOR into one framebuffer byte (R193). -/
def blit (a : Nat) (p : Byte) (d : Drawing) : Except Fault Drawing :=
  match memRead a d.st with
  | .error f => .error f
  | .ok old =>
    match memWrite a (old ^^^ p) d.st with
    | .error f => .error f
    | .ok t => .ok ⟨t, d.coll || collides old p⟩

/-- The blits of one sprite row, whose stored byte is `b`, at byte address `a0` and bit offset `sh = cx mod 8`: one
byte when `sh = 0`, otherwise two (R191, R193). -/
def blitRow (a0 sh : Nat) (b : Byte) (d : Drawing) : Except Fault Drawing :=
  if sh = 0 then blit a0 (rev8 b) d
  else
    match blit a0 (rev8 b <<< sh) d with
    | .ok d' => blit (a0 + 1) (rev8 b >>> (8 - sh)) d'
    | .error f => .error f

/-- Row `k` of a sprite drawn at `(cx, cy)`: its byte is read just before its own blit, so it sees what earlier rows
wrote (R191, R196). -/
def drawRow (cx cy : Byte) (k : Nat) (d : Drawing) : Except Fault Drawing :=
  match memRead (d.st.indexAddr k) d.st with
  | .ok b => blitRow (spriteAddr cx cy k) (cx.toNat % 8) b d
  | .error f => .error f

/-- Rows `k, k+1, …`, `n` of them, in ascending order (R191). -/
def drawRows (cx cy : Byte) : Nat → Nat → Drawing → Except Fault Drawing
  | _, 0, d => .ok d
  | k, n + 1, d =>
    match drawRow cx cy k d with
    | .ok d' => drawRows cx cy (k + 1) n d'
    | .error f => .error f

/-- The execute phase of DRW Vx, Vy, n (R191): the coordinates are read first, `VF` is written once, last. -/
def drwBody (x y : RegIdx) (n : Nat) (s : State) : Except Fault State :=
  match drawRows (s.getV x) (s.getV y) 0 n ⟨s, false⟩ with
  | .ok d => .ok { d.st.setV VF (flagByte d.coll) with displayChanged := true }
  | .error f => .error f

/-- DRW Vx, Vy, n (R191). -/
def execDrw (x y : RegIdx) (n : Nat) : State → Host.Outcome State Fault Refusal :=
  attempt (.drw x y n) (drwBody x y n)

end Sys2Proof.Machine
end

