-- ==== Sys2Proof/Machine/Flow.lean ====
section
/-! DEFINITION. Jumps, call and return, and conditional skips (40_flow_control.md). Each meaning takes the state at the
start of the step; `complete` and `attempt` advance `PC` first. -/

namespace Sys2Proof.Machine

/-- JP nnn (R100). -/
def execJp (nnn : Addr12) : State → Host.Outcome State Fault Refusal :=
  complete fun s => { s with pc := target nnn }

/-- JP V0, nnn (R101). -/
def execJpV0 (nnn : Addr12) : State → Host.Outcome State Fault Refusal :=
  complete fun s => { s with pc := indexedTarget nnn s }

/-- The execute phase of CALL nnn (R102): the pushed value is `PC`, already past the CALL. -/
def callBody (nnn : Addr12) (s : State) : Except Fault State :=
  if s.sp.toNat ≤ Config.stackBase then .error (.stackOverflow s.sp)
  else
    match memWrite2 (s.sp - 2).toNat s.pc { s with sp := s.sp - 2 } with
    | .ok t => .ok { t with pc := target nnn }
    | .error f => .error f

/-- CALL nnn (R102). -/
def execCall (nnn : Addr12) : State → Host.Outcome State Fault Refusal :=
  attempt (.call nnn) (callBody nnn)

/-- The execute phase of RET (R103). -/
def retBody (s : State) : Except Fault State :=
  if s.sp.toNat ≥ Config.stackTop then .error (.stackUnderflow s.sp)
  else
    match memRead2 s.sp.toNat s with
    | .ok ra => .ok { s with pc := ra, sp := s.sp + 2 }
    | .error f => .error f

/-- RET (R103). The ignored bits reach only the fault record. -/
def execRet (ignored : Nibble) : State → Host.Outcome State Fault Refusal :=
  attempt (.ret ignored) retBody

/-- SE Vx, nn (R104). -/
def execSeImm (x : RegIdx) (nn : Byte) : State → Host.Outcome State Fault Refusal :=
  complete fun s => s.skipIf (s.getV x == nn)

/-- SNE Vx, nn (R105). -/
def execSneImm (x : RegIdx) (nn : Byte) : State → Host.Outcome State Fault Refusal :=
  complete fun s => s.skipIf (s.getV x != nn)

/-- SE Vx, Vy (R106). -/
def execSeReg (x y : RegIdx) : State → Host.Outcome State Fault Refusal :=
  complete fun s => s.skipIf (s.getV x == s.getV y)

/-- SNE Vx, Vy (R107). -/
def execSneReg (x y : RegIdx) : State → Host.Outcome State Fault Refusal :=
  complete fun s => s.skipIf (s.getV x != s.getV y)

end Sys2Proof.Machine
end

