-- ==== Sys2Proof/Machine/Index.lean ====
section
/-! DEFINITION. The index register, the font pointer, BCD and the bulk register transfers (43_memory_index.md). `I` is
never changed by an access (D17). -/

namespace Sys2Proof.Machine

/-- LD I, nnn (R170). -/
def execLdI (nnn : Addr12) : State → Host.Outcome State Fault Refusal :=
  complete fun s => { s with i := nnn }

/-- ADD I, Vx (R171): modulo 0x1000, no flag. -/
def execAddI (x : RegIdx) : State → Host.Outcome State Fault Refusal :=
  complete fun s => { s with i := s.i + (s.getV x).zeroExtend 12 }

/-- The execute phase of LD F, Vx (R172), with FONT_BASE as an argument. -/
def ldFBody (base : Nat) (x : RegIdx) (s : State) : Except Fault State :=
  match glyphOperand base x s with
  | .ok a => .ok { s with i := a }
  | .error f => .error f

/-- LD F, Vx (R172), with FONT_BASE as an argument. -/
def execLdFAt (base : Nat) (x : RegIdx) : State → Host.Outcome State Fault Refusal :=
  attempt (.ldF x) (ldFBody base x)

/-- LD F, Vx (R172), with the default FONT_BASE. -/
def execLdF (x : RegIdx) : State → Host.Outcome State Fault Refusal :=
  execLdFAt Config.fontBase x

/-- BCD Vx (R173). -/
def execBcd (x : RegIdx) : State → Host.Outcome State Fault Refusal :=
  attempt (.bcd x) fun s => storeBytes (s.indexAddr 0) (decimalDigits (s.getV x)) s

/-- LD [I], Vx (R174). -/
def execStoreRegs (x : RegIdx) : State → Host.Outcome State Fault Refusal :=
  attempt (.storeRegs x) fun s => storeBytes (s.indexAddr 0) (regsUpTo x s) s

/-- The execute phase of LD Vx, [I] (R175). -/
def loadRegsBody (x : RegIdx) (s : State) : Except Fault State :=
  match loadBytes (s.indexAddr 0) (x.val + 1) s with
  | .ok bs => .ok { s with v := setRegs 0 bs s.v }
  | .error f => .error f

/-- LD Vx, [I] (R175). -/
def execLoadRegs (x : RegIdx) : State → Host.Outcome State Fault Refusal :=
  attempt (.loadRegs x) (loadRegsBody x)

end Sys2Proof.Machine
end

