-- ==== Sys2Proof/Machine/Keypad.lean ====
section
/-! DEFINITION. Key tests, the key-wait state machine and timer access (42_keypad_timers.md). -/

namespace Sys2Proof.Machine

/-- The execute phase of KEYD Vx (R150). -/
def keydBody (x : RegIdx) (s : State) : Except Fault State :=
  match keyOperand x s with
  | .ok k => .ok (s.skipIf (s.keyAt k))
  | .error f => .error f

/-- KEYD Vx (R150). -/
def execKeyd (x : RegIdx) : State → Host.Outcome State Fault Refusal :=
  attempt (.keyd x) (keydBody x)

/-- The execute phase of KEYU Vx (R151). -/
def keyuBody (x : RegIdx) (s : State) : Except Fault State :=
  match keyOperand x s with
  | .ok k => .ok (s.skipIf (!s.keyAt k))
  | .error f => .error f

/-- KEYU Vx (R151). -/
def execKeyu (x : RegIdx) : State → Host.Outcome State Fault Refusal :=
  attempt (.keyu x) (keyuBody x)

/-- GETK before a key is latched: IDLE_WAIT, or the first entry (R154, R155). -/
def getkIdle (x : RegIdx) (s : State) : State :=
  match lowestPressed s with
  | some k => { (s.setV x (BitVec.ofNat 8 k.val)).repeatInstr with waitingRelease := true, blocked := true }
  | none => { s.repeatInstr with blocked := true }

/-- GETK with a key latched: ARMED (R154, R155). The latched index is re-read from `V[x]` (R47). -/
def getkArmed (x : RegIdx) (s : State) : State :=
  if s.keyAt (s.getV x).toNat then s.repeatInstr else { s with waitingRelease := false, blocked := false }

/-- GETK Vx (R154). -/
def execGetk (x : RegIdx) : State → Host.Outcome State Fault Refusal :=
  complete fun s => if s.waitingRelease then getkArmed x s else getkIdle x s

/-- LD Vx, DT (R160). -/
def execLdVxDt (x : RegIdx) : State → Host.Outcome State Fault Refusal :=
  complete fun s => s.setV x (truncated s.dt)

/-- LD DT, Vx (R161). -/
def execLdDtVx (x : RegIdx) : State → Host.Outcome State Fault Refusal :=
  complete fun s => { s with dt := timerValue (s.getV x) }

/-- LD ST, Vx (R162). -/
def execLdStVx (x : RegIdx) : State → Host.Outcome State Fault Refusal :=
  complete fun s => { s with st := timerValue (s.getV x) }

end Sys2Proof.Machine
end

