-- ==== Sys2Proof/Machine/Params.lean ====
section
/-! DEFINITION. The instructions and the reset state with FONT_BASE and FONT_DATA as arguments (10_state.md R31, R50;
93_implementation_defined.md I26; log 10). -/

namespace Sys2Proof.Machine

/-- The meaning of an instruction with the font as an argument. FONT_BASE reaches LD F,Vx (R172) and no other instruction;
FONT_DATA reaches none, only reset. -/
def execAt (font : Font) (i : Instr) (s : State) : Host.Outcome State Fault Refusal :=
  match i with
  | .ldF x => execLdFAt font.base x s
  | _ => exec i s

/-- The machine right after reset with a font and no program image (R48, 70_reset_and_hazards.md R251). -/
def State.resetAt (font : Font) : State := { State.reset with mem := Memory.loaded font [] }

end Sys2Proof.Machine
end

