-- ==== Sys2Proof/Machine/Step.lean ====
section
/-! DEFINITION. One step (30_encoding.md R80, 60_exceptions.md R226), and the placing of a word where it fetches. -/

namespace Sys2Proof.Machine

/-- `Step()` (60_exceptions.md R226) over the meanings `run` of the instructions, in the priority of R222: a halted core
changes nothing; a fetch fault; an unknown opcode; then the instruction, which takes its own faults. -/
def stepBy (run : Instr → State → Host.Outcome State Fault Refusal) (s : State) : Host.Outcome State Fault Refusal :=
  if s.halted then .next s
  else
    match fetch s with
    | .error f => .next (takeFault f none s)
    | .ok op =>
      match decode op with
      | .error _ => .next (takeFault (.unknownOpcode op) (some op) s)
      | .ok i => run i s

/-- `Step()` with the font as an argument (log 10). -/
def stepAt (font : Font) : State → Host.Outcome State Fault Refusal := stepBy (execAt font)

/-- `Step()` with the default font. -/
def step (s : State) : Host.Outcome State Fault Refusal := stepBy exec s

/-- The state with an instruction's word in memory where the next step fetches: its high byte at `PC`, its low byte
after it (20_memory.md R64). Nothing else changes. -/
def State.withFetchWord (s : State) (nbits w : Nat) : State :=
  let op := tableWord nbits w
  { s with mem := Memory.writeAll s.mem s.pc.toNat [op.extractLsb' 8 8, op.extractLsb' 0 8] }

end Sys2Proof.Machine
end

