-- ==== Sys2Proof/Machine/HostOps.lean ====
section
/-! DEFINITION. The host interface (60_exceptions.md R225 to R238): the atomic operations a host performs between
steps. `perform` is one transition of the whole system, core and host. -/

namespace Sys2Proof.Machine

/-- What `Step()` returns (60_exceptions.md R227). -/
inductive StepResult
  | ok
  | fault (f : Fault)
  | halted
  deriving DecidableEq, Repr

/-- The result of a step from `s` with this outcome (R226, R227): only taking a fault halts a running core (log 20). -/
def resultOf (s : State) (o : Host.Outcome State Fault Refusal) : StepResult :=
  if s.halted then .halted
  else
    match o with
    | .next t =>
      match t.halted, t.fault with
      | true, some r => .fault r.fault
      | _, _ => .ok
    | .fault _ => .ok
    | .refused _ => .ok

/-- The result of `Step()` (R226, R227). -/
def stepResult (s : State) : StepResult := resultOf s (step s)

/-- One timer down by `d`, clamped at zero (R228, R229). -/
def countDown (t d : Rat) : Rat := max 0 (t - d)

/-- `Tick(dt)` with the parameter TIMER_SCALE as an argument (R228, D21). -/
def tickAt (scale dt : Rat) (s : State) : Host.Outcome State Fault Refusal :=
  if dt < 0 then .refused (.negativeElapsedTime dt)
  else .next { s with dt := countDown s.dt (scale * dt), st := countDown s.st (scale * dt) }

/-- `Tick(dt)` (R228). -/
def tick (dt : Rat) (s : State) : Host.Outcome State Fault Refusal := tickAt Config.timerScale.val dt s

/-- `SetKey(k, pressed)` (R230). -/
def setKey (k : Nat) (pressed : Bool) (s : State) : Host.Outcome State Fault Refusal :=
  if h : k < 16 then .next { s with keys := s.keys.set k pressed } else .refused (.keyNumberOutOfRange k)

/-- `ReadFramebuffer()` (R231): the 256 bytes and the display-changed flag. -/
def readFramebuffer (s : State) : List Byte × Bool :=
  ((List.range Config.fbSize).map fun k => s.byte (Config.fbBase + k), s.displayChanged)

/-- The pixel at column `c` and row `r` (20_memory.md R62). -/
def pixel (s : State) (c r : Nat) : Bool :=
  (s.byte (Config.fbBase + Config.fbRowBytes * r + c / 8)).getLsbD (c % 8)

/-- `ClearDisplayChanged()` (R232). -/
def clearDisplayChanged (s : State) : State := { s with displayChanged := false }

/-- `Halt()` (R238). -/
def haltCore (s : State) : State := { s with halted := true }

/-- `Reset(image)` (R234, 70_reset_and_hazards.md R251, R253) with the font as an argument (log 10). The model's own counter
of draws goes on, so that draws after a reset are as free as those before it (log 3). -/
def resetWithAt (font : Font) (image : List Byte) (s : State) : Host.Outcome State Fault Refusal :=
  if image.length ≤ Config.progEnd - Config.progBase then
    .next { State.reset with mem := Memory.loaded font image, draws := s.draws }
  else .refused (.imageTooLong image.length)

/-- `Reset(image)` with the default font. -/
def resetWith (image : List Byte) (s : State) : Host.Outcome State Fault Refusal := resetWithAt Config.font image s

/-- The operations of R225. -/
inductive HostOp
  | step
  | tick (dt : Rat)
  | setKey (k : Nat) (pressed : Bool)
  | readFramebuffer
  | clearDisplayChanged
  | readStatus
  | reset (image : List Byte)
  | halt
  deriving DecidableEq, Repr

/-- One atomic operation (R225), with the parameters as an argument. The two reads change nothing; what they return is
`readFramebuffer` and `State.statusWord`. -/
def performAt (p : Params) (op : HostOp) (s : State) : Host.Outcome State Fault Refusal :=
  match op with
  | .step => stepAt p.font s
  | .tick dt => tickAt p.timerScale.val dt s
  | .setKey k pressed => Machine.setKey k pressed s
  | .readFramebuffer => .next s
  | .clearDisplayChanged => .next (Machine.clearDisplayChanged s)
  | .readStatus => .next s
  | .reset image => resetWithAt p.font image s
  | .halt => .next (haltCore s)

/-- One atomic operation, with the default font and the open TIMER_SCALE. -/
def perform (op : HostOp) (s : State) : Host.Outcome State Fault Refusal := performAt Config.params op s

end Sys2Proof.Machine
end

