-- ==== Sys2Proof/Safety.lean ====
section
/-! DEFINITION. What counts as a safe run, in the terms the claims use: the invariant of every state a run reaches, the
runs themselves, a run without a fault, and the words the claims share (encodings written as numbers, the pixels of a
sprite, the accesses of a draw). -/

namespace Sys2Proof.Machine

/-! ### Words written as the spec writes them (30_encoding.md R84) -/

/-- `0xg…nnn`. -/
def wordNNN (g nnn : Nat) : Word := BitVec.ofNat 16 (0x1000 * g + nnn)

/-- `0xgxnn`. -/
def wordXNN (g x nn : Nat) : Word := BitVec.ofNat 16 (0x1000 * g + 0x100 * x + nn)

/-- `0xgxyn`. -/
def wordXYN (g x y n : Nat) : Word := BitVec.ofNat 16 (0x1000 * g + 0x100 * x + 0x10 * y + n)

/-- The unknown encodings of 30_encoding.md R92, by the digits of the word. -/
def unknownWord (w : Nat) : Prop :=
  (w / 0x1000 = 0x0 ∧ w % 0x100 ∉ [0xE0, 0xEE]) ∨
  (w / 0x1000 = 0x8 ∧ w % 0x10 ∈ [0x8, 0x9, 0xA, 0xB, 0xC, 0xD, 0xF]) ∨
  (w / 0x1000 = 0xE ∧ w % 0x100 ∉ [0x9E, 0xA1]) ∨
  (w / 0x1000 = 0xF ∧ w % 0x100 ∉ [0x07, 0x0A, 0x15, 0x18, 0x1E, 0x29, 0x33, 0x55, 0x65])

/-! ### What a step runs -/

/-- The core is running and its next step executes the instruction `i` (30_encoding.md R80, R81). -/
def State.runsNext (s : State) (i : Instr) : Prop :=
  s.halted = false ∧ s.fetchable = true ∧ decode (s.word s.pc.toNat) = .ok i

/-- The state after the fault `f` of an instruction with opcode `op` has been taken (60_exceptions.md R219, R220):
nothing but `halted` and the fault record changes. -/
def State.faulted (s : State) (f : Fault) (op : Option Word) : State :=
  { s with halted := true, fault := some { fault := f, pc := s.pc, opcode := op } }

/-- The execute-phase faults that 60_exceptions.md R222 allows each instruction, with their information (R210). -/
def mayRaise (s : State) : Instr → Fault → Prop
  | .call _, f => f = .stackOverflow s.sp
  | .ret _, f => f = .stackUnderflow s.sp
  | .ldF x, f => f = .fontIndexOutOfRange (s.getV x)
  | .keyd x, f => f = .keyIndexOutOfRange (s.getV x)
  | .keyu x, f => f = .keyIndexOutOfRange (s.getV x)
  | .rnd _ nn, f => f = .randomModulusZero nn
  | .drw _ _ _, f => ∃ a, 0x1000 ≤ a ∧ f = .memoryOutOfRange a
  | .bcd _, f => f = .memoryOutOfRange 0x1000
  | .storeRegs _, f => f = .memoryOutOfRange 0x1000
  | .loadRegs _, f => f = .memoryOutOfRange 0x1000
  | .cls _, _ | .jp _, _ | .seImm _ _, _ | .sneImm _ _, _ | .seReg _ _ _, _ | .ldImm _ _, _ | .addImm _ _, _
  | .ldReg _ _, _ | .or _ _, _ | .and _ _, _ | .xor _ _, _ | .add _ _, _ | .sub _ _, _ | .shr _ _, _ | .subn _ _, _
  | .shl _ _, _ | .sneReg _ _ _, _ | .ldI _, _ | .jpV0 _, _ | .ldVxDt _, _ | .getk _, _ | .ldDtVx _, _
  | .ldStVx _, _ | .addI _, _ => False

/-! ### Sprites (44_display.md) -/

/-- Pixel `j` (0 = leftmost) of row `k` of the sprite at `I` (R192). -/
def State.spritePixel (s : State) (k j : Nat) : Bool := (s.byte (s.i.toNat + k)).getLsbD (7 - j)

/-- The pixel at linear position `p` of the framebuffer: column `p mod 64` of row `p div 64`, which is bit `p mod 8` of
byte `p div 8` (20_memory.md R62). -/
def State.fbPixel (s : State) (p : Nat) : Bool := (s.byte (0xF00 + p / 8)).getLsbD (p % 8)

/-- Where pixel `j` of row `k` of a sprite drawn at `(cx, cy)` lands: vertical wrap, no horizontal wrap or clip (R191,
R194). -/
def landing (cx cy : Byte) (k j : Nat) : Nat := 64 * ((cy.toNat + k) % 32) + cx.toNat + j

/-- The pixel at linear position `p` of the framebuffer in a memory. -/
def Memory.fbPixel (m : Memory) (p : Nat) : Bool := (Memory.read m (0xF00 + p / 8)).getLsbD (p % 8)

/-- A set pixel of row `k` of the sprite at `i`, as this memory holds it and drawn at `(cx, cy)`, lands on position `p`. -/
def Memory.rowHits (m : Memory) (i : Addr12) (cx cy : Byte) (k p : Nat) : Prop :=
  ∃ j < 8, p = landing cx cy k j ∧ (Memory.read m (i.toNat + k)).getLsbD (7 - j) = true

/-- A set pixel of the sprite at `I`, `n` rows high and drawn at `(cx, cy)`, lands on position `p`. -/
def State.spriteHits (s : State) (cx cy : Byte) (n p : Nat) : Prop :=
  ∃ k < n, ∃ j < 8, p = landing cx cy k j ∧ s.spritePixel k j = true

/-- The byte address `a` is one that a draw of `n` rows at `(cx, cy)` writes: one or two bytes a row (R191, R194). -/
def drawWrites (cx cy : Byte) (n a : Nat) : Prop :=
  ∃ k < n, a = 0xF00 + 8 * ((cy.toNat + k) % 32) + cx.toNat / 8 ∨
    (cx.toNat % 8 ≠ 0 ∧ a = 0xF00 + 8 * ((cy.toNat + k) % 32) + cx.toNat / 8 + 1)

/-- The byte address `a` is one that a draw reads as a sprite row. -/
def State.drawReads (s : State) (n a : Nat) : Prop := ∃ k < n, a = s.i.toNat + k

/-- The addresses that a draw of `n` rows at `(cx, cy)` accesses, in the order of the pseudocode (R191): for each row
its sprite byte, its first framebuffer byte, and its second one where there is a bit offset. -/
def State.drawAccesses (s : State) (cx cy : Byte) (n : Nat) : List Nat :=
  (List.range n).flatMap fun k =>
    let a0 := 0xF00 + 8 * ((cy.toNat + k) % 32) + cx.toNat / 8
    (s.i.toNat + k) :: a0 :: (if cx.toNat % 8 = 0 then [] else [a0 + 1])

/-- Every access of the draw is to an address that exists (R194, 20_memory.md R66). -/
def State.drawInRange (s : State) (cx cy : Byte) (n : Nat) : Prop :=
  ∀ a, s.drawReads n a ∨ drawWrites cx cy n a → a < 0x1000

/-- No sprite byte is a byte that the draw writes (R198). -/
def State.spriteApart (s : State) (cx cy : Byte) (n : Nat) : Prop :=
  ∀ a, s.drawReads n a → ¬ drawWrites cx cy n a

/-! ### Data stores (43_memory_index.md R173, R174) -/

/-- The next step stores the byte `b` at `a` by BCD or LD [I],Vx, and raises no fault. -/
def State.storesByte (s : State) (a : Nat) (b : Byte) : Prop :=
  (∃ x, s.runsNext (.storeRegs x) ∧ s.i.toNat + x.val ≤ 0xFFF ∧ ∃ k : RegIdx, k ≤ x ∧ a = s.i.toNat + k.val ∧ b = s.getV k) ∨
  (∃ x, s.runsNext (.bcd x) ∧ s.i.toNat + 2 ≤ 0xFFF ∧
    ((a = s.i.toNat ∧ b.toNat = (s.getV x).toNat / 100) ∨ (a = s.i.toNat + 1 ∧ b.toNat = (s.getV x).toNat / 10 % 10) ∨
     (a = s.i.toNat + 2 ∧ b.toNat = (s.getV x).toNat % 10)))

/-- In the run `σ`, the most recent data store at `a` by the steps before step `k` stored `b`; or none of them stored there
and `a` held `b` at the start (20_memory.md R71). -/
def lastStored (σ : Nat → State) (k a : Nat) (b : Byte) : Prop :=
  (∃ j < k, (σ j).storesByte a b ∧ ∀ j', j < j' → j' < k → ∀ b', ¬ (σ j').storesByte a b') ∨
  ((∀ j < k, ∀ b', ¬ (σ j).storesByte a b') ∧ (σ 0).byte a = b)

/-! ### The invariant -/

/-- The core stands at a GETK Vx in program space. -/
def State.atGetk (s : State) (x : RegIdx) : Prop :=
  s.fetchable = true ∧ decode (s.word s.pc.toNat) = .ok (.getk x)

/-- What holds in every state that a run reaches. -/
structure Inv (s : State) : Prop where
  /-- Memory is in canonical form. -/
  memory_canonical : Memory.wf s.mem = true
  /-- `SP` lies in [STACK_BASE, STACK_TOP] (10_state.md R38). -/
  sp_in_region : 0xEA0 ≤ s.sp.toNat ∧ s.sp.toNat ≤ 0xF00
  /-- `SP` is even (R38). -/
  sp_even : s.sp.toNat % 2 = 0
  /-- `DT` is non-negative and at most 255 (R40, 42_keypad_timers.md R160). -/
  dt_range : 0 ≤ s.dt ∧ s.dt ≤ 255
  /-- `ST` is non-negative and at most 255 (R40). -/
  st_range : 0 ≤ s.st ∧ s.st ≤ 255
  /-- `blocked` false with `waiting_release` true never occurs (42_keypad_timers.md R155). -/
  wait_flags : s.waitingRelease = true → s.blocked = true
  /-- While blocked, the next step runs the GETK that waits, and a latched index is a key (R157). -/
  blocked_at_getk : s.blocked = true →
    ∃ x, s.atGetk x ∧ (s.waitingRelease = true → (s.getV x).toNat ≤ 15)
  /-- A recorded fault has halted the core (10_state.md R45). -/
  fault_halts : s.fault ≠ none → s.halted = true

/-! ### Runs -/

/-- States reached from reset, with parameters `p`, by any operations of the host in any order (60_exceptions.md R225). -/
inductive Reachable (p : Params) : State → Prop
  | start : Reachable p (State.resetAt p.font)
  | next (s t : State) (op : HostOp) : Reachable p s → performAt p op s = .next t → Reachable p t

/-- `k` steps in a row that all return `Ok` (60_exceptions.md R227): no fault, and the core is not halted. -/
def SafeRun : Nat → State → Prop
  | 0, _ => True
  | k + 1, s => stepResult s = .ok ∧ ∃ t, step s = .next t ∧ SafeRun k t

end Sys2Proof.Machine
end

