-- ==== Sys2Proof/Certificates/Slice0/Obligations.lean ====
section
/-! DEFINITION. The statements about the model, for the provers. Words are written as numbers from the spec's own
encodings (`wordNNN`, `wordXNN`, `wordXYN`), so that a statement about an instruction says which word it is; a next
state is written as the old state with the fields that change, so that everything else is its frame. -/

open Sys2Proof Sys2Proof.Machine

/-! ### Encoding -/

/-- Decoding the word of a well-formed instruction gives that instruction (30_encoding.md R84 to R91). -/
def Obligations.DecodeInvertsEncode : Prop :=
  ∀ i : Instr, i.wellFormed = true → decode (encode i) = .ok i

/-- What decodes is well formed, and its word is the one decoded: no two words share an instruction term. -/
def Obligations.EncodeInvertsDecode : Prop :=
  ∀ (w : Word) (i : Instr), decode w = .ok i → i.wellFormed = true ∧ encode i = w

/-- Words of the spec's own examples, one or more a family, decode to what they stand for. -/
def Obligations.SpecWordsDecode : Prop :=
  decode 0x6005 = .ok (.ldImm 0 5) ∧ decode 0x7003 = .ok (.addImm 0 3) ∧ decode 0xA2F0 = .ok (.ldI 0x2F0) ∧
  decode 0xF055 = .ok (.storeRegs 0) ∧ decode 0xF355 = .ok (.storeRegs 3) ∧ decode 0x2208 = .ok (.call 0x208) ∧
  decode 0x05EE = .ok (.ret 5) ∧ decode 0x5231 = .ok (.seReg 2 3 1) ∧ decode 0x8014 = .ok (.add 0 1) ∧
  decode 0x820E = .ok (.shl 2 0) ∧ decode 0xC00A = .ok (.rnd 0 10) ∧ decode 0xE5A1 = .ok (.keyu 5) ∧
  decode 0xF30A = .ok (.getk 3) ∧ decode 0xF118 = .ok (.ldStVx 1) ∧ decode 0xF433 = .ok (.bcd 4) ∧
  decode 0xD125 = .ok (.drw 1 2 5) ∧ decode 0x0123 = .error (.unknownOpcode 0x0123)

/-- A word decodes to an instruction exactly when it matches that instruction's row of the opcode table, and no other
row matches it. -/
def Obligations.DecodeFollowsOpcodeTable : Prop :=
  ∀ (w : Word) (i : Instr), (∃ j, decode w = .ok j ∧ j.row = i.row) ↔ i.row.matches w

/-- The unknown encodings are those of R92 and no others, and a step that fetches one takes UnknownOpcode with the
opcode. -/
def Obligations.UnknownWordsAreExactlyThese : Prop :=
  (∀ w : Word, decode w = .error (.unknownOpcode w) ↔ unknownWord w.toNat) ∧
  (∀ w : Word, (∃ i, decode w = .ok i) ↔ ¬ unknownWord w.toNat) ∧
  (∀ s : State, s.halted = false → s.fetchable = true → unknownWord (s.word s.pc.toNat).toNat →
    step s = .next (s.faulted (.unknownOpcode (s.word s.pc.toNat)) (some (s.word s.pc.toNat))))

/-! ### The step -/

/-- When the core runs and the two bytes at `PC`, big-endian and both in program space, decode to an instruction, the
step is that instruction's meaning at this state (the meaning makes the advance of `PC` itself). -/
def Obligations.StepRunsDecodedInstr : Prop :=
  ∀ (s : State) (i : Instr), s.halted = false → 0x200 ≤ s.pc.toNat → s.pc.toNat + 2 ≤ 0xEA0 →
    decode (BitVec.ofNat 16 ((s.byte s.pc.toNat).toNat * 256 + (s.byte (s.pc.toNat + 1)).toNat)) = .ok i →
    step s = exec i s

/-- A fetch outside program space is taken as FetchOutOfRange with `PC`, before any decoding. -/
def Obligations.FetchOutsideProgramSpaceFaults : Prop :=
  ∀ s : State, s.halted = false → (s.pc.toNat < 0x200 ∨ s.pc.toNat + 2 > 0xEA0) →
    step s = .next (s.faulted (.fetchOutOfRange s.pc) none) ∧ stepResult s = .fault (.fetchOutOfRange s.pc)

/-- A halted core ignores every step, returns `Halted`, and stays halted with the same fault record through every
operation but reset. -/
def Obligations.OnlyResetEndsHalt : Prop :=
  (∀ s : State, s.halted = true → step s = .next s ∧ stepResult s = .halted) ∧
  (∀ (s t : State) (op : HostOp), s.halted = true → (∀ image, op ≠ .reset image) → perform op s = .next t →
    t.halted = true ∧ t.fault = s.fault) ∧
  (∀ (s : State) (image : List Byte), image.length ≤ 3232 →
    ∃ t, perform (.reset image) s = .next t ∧ t.halted = false ∧ t.fault = none)

/-- Every step answers a next state: no instruction, word, `PC` or operand stops the model. -/
def Obligations.EveryStepAnswersNextState : Prop :=
  ∀ s : State, ∃ t, step s = .next t

/-- A step that faults discards everything it did: the next state is the old one, halted, with the record of the fault,
`PC` at the start of the step and the opcode fetched, none if the fetch itself faulted. -/
def Obligations.FaultedStepRollsBack : Prop :=
  ∀ s t : State, s.halted = false → step s = .next t → t.halted = true →
    ∃ f, stepResult s = .fault f ∧
      ((f = .fetchOutOfRange s.pc ∧ t = s.faulted f none) ∨
       (s.fetchable = true ∧ t = s.faulted f (some (s.word s.pc.toNat))))

/-- A step that runs an instruction faults only with the one kind of fault that R222 names for it, with the information
of R210. -/
def Obligations.OneFaultKindPerInstruction : Prop :=
  ∀ (s t : State) (i : Instr), Inv s → s.runsNext i → step s = .next t → t.halted = true →
    ∃ f, mayRaise s i f ∧ t = s.faulted f (some (s.word s.pc.toNat))

/-! ### Flow control -/

/-- JP and JP V0 set `PC` to their exact target and nothing else; a target outside program space faults at the next
fetch. -/
def Obligations.JumpsSetPcExactly : Prop :=
  (∀ nnn : Addr12, decode (wordNNN 0x1 nnn.toNat) = .ok (.jp nnn) ∧ decode (wordNNN 0xB nnn.toNat) = .ok (.jpV0 nnn)) ∧
  (∀ (nnn : Addr12) (s : State), ∃ pc : Word, pc.toNat = nnn.toNat ∧ exec (.jp nnn) s = .next { s with pc := pc }) ∧
  (∀ (nnn : Addr12) (s : State), ∃ pc : Word, pc.toNat = (s.getV 0).toNat + nnn.toNat ∧
    exec (.jpV0 nnn) s = .next { s with pc := pc }) ∧
  (∀ (i : Instr) (nnn : Addr12) (s t : State), i = .jp nnn ∨ i = .jpV0 nnn → exec i s = .next t → s.halted = false →
    (t.pc.toNat < 0x200 ∨ 0xE9E < t.pc.toNat) → step t = .next (t.faulted (.fetchOutOfRange t.pc) none))

/-- CALL on a full stack takes StackOverflow; otherwise it stores `PC + 2` big-endian at `SP - 2`, leaves every other
byte alone, lowers `SP` by 2 and jumps. -/
def Obligations.CallPushesReturnAddress : Prop :=
  (∀ nnn : Addr12, decode (wordNNN 0x2 nnn.toNat) = .ok (.call nnn)) ∧
  (∀ (nnn : Addr12) (s : State), s.sp.toNat ≤ 0xEA0 →
    exec (.call nnn) s = .next (s.faulted (.stackOverflow s.sp) (some (wordNNN 0x2 nnn.toNat)))) ∧
  (∀ (nnn : Addr12) (s : State), Memory.wf s.mem = true → 0xEA0 < s.sp.toNat → s.sp.toNat ≤ 0xF00 →
    ∃ m : Memory, exec (.call nnn) s =
        .next { s with pc := BitVec.ofNat 16 nnn.toNat, sp := s.sp - 2, mem := m } ∧
      ∀ a, Memory.read m a =
        if a = s.sp.toNat - 2 then BitVec.ofNat 8 ((s.pc + 2).toNat / 256)
        else if a = s.sp.toNat - 1 then BitVec.ofNat 8 ((s.pc + 2).toNat % 256)
        else s.byte a)

/-- RET on an empty stack takes StackUnderflow; otherwise `PC` becomes the two bytes at `SP`, big-endian, and `SP` rises
by 2. Where that address is outside program space, the next fetch faults. The ignored bits change nothing. -/
def Obligations.RetPopsReturnAddress : Prop :=
  (∀ h : Nibble, decode (wordXNN 0x0 h.toNat 0xEE) = .ok (.ret h)) ∧
  (∀ (h : Nibble) (s : State), 0xF00 ≤ s.sp.toNat →
    exec (.ret h) s = .next (s.faulted (.stackUnderflow s.sp) (some (wordXNN 0x0 h.toNat 0xEE)))) ∧
  (∀ (h : Nibble) (s : State), s.sp.toNat < 0xF00 →
    ∃ pc : Word, pc.toNat = (s.byte s.sp.toNat).toNat * 256 + (s.byte (s.sp.toNat + 1)).toNat ∧
      exec (.ret h) s = .next { s with pc := pc, sp := s.sp + 2 }) ∧
  (∀ (h : Nibble) (s t : State), exec (.ret h) s = .next t → t.halted = false →
    (t.pc.toNat < 0x200 ∨ 0xE9E < t.pc.toNat) → step t = .next (t.faulted (.fetchOutOfRange t.pc) none))

/-- A RET that finds the stack as a CALL left it resumes after the CALL, with `SP` as before it, whatever the subroutine
did to the registers and to `PC`. -/
def Obligations.RetResumesAfterCall : Prop :=
  ∀ (nnn : Addr12) (h : Nibble) (s t u : State), Memory.wf s.mem = true → 0xEA0 < s.sp.toNat → s.sp.toNat ≤ 0xF00 →
    exec (.call nnn) s = .next t → u.sp = t.sp → u.byte t.sp.toNat = t.byte t.sp.toNat →
    u.byte (t.sp.toNat + 1) = t.byte (t.sp.toNat + 1) →
    exec (.ret h) u = .next { u with pc := s.pc + 2, sp := s.sp }

/-- The four skips: `PC` moves past the instruction and, exactly when the condition holds, past the next one too;
nothing else changes, and the ignored low nibble plays no part. -/
def Obligations.SkipsMovePcOnly : Prop :=
  (∀ (x : RegIdx) (nn : Byte) (s : State), decode (wordXNN 0x3 x.val nn.toNat) = .ok (.seImm x nn) ∧
    exec (.seImm x nn) s = .next { s with pc := if s.getV x = nn then s.pc + 4 else s.pc + 2 }) ∧
  (∀ (x : RegIdx) (nn : Byte) (s : State), decode (wordXNN 0x4 x.val nn.toNat) = .ok (.sneImm x nn) ∧
    exec (.sneImm x nn) s = .next { s with pc := if s.getV x = nn then s.pc + 2 else s.pc + 4 }) ∧
  (∀ (x y : RegIdx) (l : Nibble) (s : State), decode (wordXYN 0x5 x.val y.val l.toNat) = .ok (.seReg x y l) ∧
    exec (.seReg x y l) s = .next { s with pc := if s.getV x = s.getV y then s.pc + 4 else s.pc + 2 }) ∧
  (∀ (x y : RegIdx) (l : Nibble) (s : State), decode (wordXYN 0x9 x.val y.val l.toNat) = .ok (.sneReg x y l) ∧
    exec (.sneReg x y l) s = .next { s with pc := if s.getV x = s.getV y then s.pc + 2 else s.pc + 4 })

/-! ### Register loads, arithmetic, logic, shifts and random -/

/-- LD Vx,nn and ADD Vx,nn: the new `V[x]`, wrapping at 256, no flag, nothing else. -/
def Obligations.ImmediateLoadAndAdd : Prop :=
  (∀ (x : RegIdx) (nn : Byte) (s : State), decode (wordXNN 0x6 x.val nn.toNat) = .ok (.ldImm x nn) ∧
    exec (.ldImm x nn) s = .next { s with pc := s.pc + 2, v := s.v.set x.val nn }) ∧
  (∀ (x : RegIdx) (nn : Byte) (s : State), decode (wordXNN 0x7 x.val nn.toNat) = .ok (.addImm x nn) ∧
    ∃ b : Byte, b.toNat = ((s.getV x).toNat + nn.toNat) % 256 ∧
      exec (.addImm x nn) s = .next { s with pc := s.pc + 2, v := s.v.set x.val b })

/-- LD, OR, AND and XOR Vx,Vy: bit by bit, `VF` not written unless it is the destination, nothing else. -/
def Obligations.CopyAndLogic : Prop :=
  ∀ (x y : RegIdx) (s : State),
    (decode (wordXYN 0x8 x.val y.val 0) = .ok (.ldReg x y) ∧
      exec (.ldReg x y) s = .next { s with pc := s.pc + 2, v := s.v.set x.val (s.getV y) }) ∧
    (decode (wordXYN 0x8 x.val y.val 1) = .ok (.or x y) ∧
      ∃ b : Byte, (∀ k, b.getLsbD k = ((s.getV x).getLsbD k || (s.getV y).getLsbD k)) ∧
        exec (.or x y) s = .next { s with pc := s.pc + 2, v := s.v.set x.val b }) ∧
    (decode (wordXYN 0x8 x.val y.val 2) = .ok (.and x y) ∧
      ∃ b : Byte, (∀ k, b.getLsbD k = ((s.getV x).getLsbD k && (s.getV y).getLsbD k)) ∧
        exec (.and x y) s = .next { s with pc := s.pc + 2, v := s.v.set x.val b }) ∧
    (decode (wordXYN 0x8 x.val y.val 3) = .ok (.xor x y) ∧
      ∃ b : Byte, (∀ k, b.getLsbD k = ((s.getV x).getLsbD k ^^ (s.getV y).getLsbD k)) ∧
        exec (.xor x y) s = .next { s with pc := s.pc + 2, v := s.v.set x.val b })

/-- ADD Vx,Vy: the sum modulo 256 in `V[x]`, then the carry in `VF`, so that for `x = 15` the carry remains; every
other register and everything else as before. -/
def Obligations.AddWritesSumThenCarry : Prop :=
  ∀ (x y : RegIdx) (s : State), decode (wordXYN 0x8 x.val y.val 4) = .ok (.add x y) ∧
    ∃ v : Vector Byte 16, exec (.add x y) s = .next { s with pc := s.pc + 2, v := v } ∧
      v[15].toNat = (if (s.getV x).toNat + (s.getV y).toNat > 255 then 1 else 0) ∧
      (x ≠ 15 → v[x.val].toNat = ((s.getV x).toNat + (s.getV y).toNat) % 256) ∧
      ∀ r : RegIdx, r ≠ x → r ≠ 15 → v[r.val] = s.getV r

/-- SUB and SUBN: the difference modulo 256 in `V[x]`, then "no borrow" in `VF`, so that for `x = 15` the flag remains;
every other register and everything else as before. -/
def Obligations.SubtractsWriteDifferenceThenNoBorrow : Prop :=
  ∀ (x y : RegIdx) (s : State),
    (decode (wordXYN 0x8 x.val y.val 5) = .ok (.sub x y) ∧
      ∃ v : Vector Byte 16, exec (.sub x y) s = .next { s with pc := s.pc + 2, v := v } ∧
        v[15].toNat = (if (s.getV x).toNat ≥ (s.getV y).toNat then 1 else 0) ∧
        (x ≠ 15 → ((v[x.val].toNat : Int) = ((s.getV x).toNat - (s.getV y).toNat : Int) % 256)) ∧
        ∀ r : RegIdx, r ≠ x → r ≠ 15 → v[r.val] = s.getV r) ∧
    (decode (wordXYN 0x8 x.val y.val 7) = .ok (.subn x y) ∧
      ∃ v : Vector Byte 16, exec (.subn x y) s = .next { s with pc := s.pc + 2, v := v } ∧
        v[15].toNat = (if (s.getV y).toNat ≥ (s.getV x).toNat then 1 else 0) ∧
        (x ≠ 15 → ((v[x.val].toNat : Int) = ((s.getV y).toNat - (s.getV x).toNat : Int) % 256)) ∧
        ∀ r : RegIdx, r ≠ x → r ≠ 15 → v[r.val] = s.getV r)

/-- SHR and SHL: the bit shifted out in `VF`, then `V[x]` halved or doubled modulo 256. For `x = 15` the flag is written
first and then shifted: SHR VF leaves 0, SHL VF leaves twice the old bit 7. The ignored bits play no part. -/
def Obligations.ShiftsWriteFlagThenShift : Prop :=
  ∀ (x : RegIdx) (l : Nibble) (s : State),
    (decode (wordXYN 0x8 x.val l.toNat 6) = .ok (.shr x l) ∧
      ∃ v : Vector Byte 16, exec (.shr x l) s = .next { s with pc := s.pc + 2, v := v } ∧
        (x ≠ 15 → v[15].toNat = (s.getV x).toNat % 2 ∧ v[x.val].toNat = (s.getV x).toNat / 2) ∧
        (x = 15 → v[15] = 0) ∧
        ∀ r : RegIdx, r ≠ x → r ≠ 15 → v[r.val] = s.getV r) ∧
    (decode (wordXYN 0x8 x.val l.toNat 0xE) = .ok (.shl x l) ∧
      ∃ v : Vector Byte 16, exec (.shl x l) s = .next { s with pc := s.pc + 2, v := v } ∧
        (x ≠ 15 → v[15].toNat = (s.getV x).toNat / 128 ∧ v[x.val].toNat = (s.getV x).toNat * 2 % 256) ∧
        (x = 15 → v[15].toNat = 2 * ((s.getV 15).toNat / 128)) ∧
        ∀ r : RegIdx, r ≠ x → r ≠ 15 → v[r.val] = s.getV r)

/-- RND with `nn = 0` takes RandomModulusZero; otherwise `V[x]` gets some value below `nn` and nothing else of the
spec's state changes (`draws` is the model's own counter of free values, log 3). -/
def Obligations.RndDrawsBelowImmediate : Prop :=
  (∀ (x : RegIdx) (nn : Byte), decode (wordXNN 0xC x.val nn.toNat) = .ok (.rnd x nn)) ∧
  (∀ (x : RegIdx) (s : State),
    exec (.rnd x 0) s = .next (s.faulted (.randomModulusZero 0) (some (wordXNN 0xC x.val 0)))) ∧
  (∀ (x : RegIdx) (nn : Byte) (s : State), nn ≠ 0 →
    ∃ (b : Byte) (d : Nat), b.toNat < nn.toNat ∧
      exec (.rnd x nn) s = .next { s with pc := s.pc + 2, v := s.v.set x.val b, draws := d })

/-! ### Keypad and timers -/

/-- KEYD and KEYU: `V[x]` above 15 takes KeyIndexOutOfRange; otherwise `PC` skips exactly when the key is down, or up,
and nothing else changes. -/
def Obligations.KeyTestsSkipOnKeyState : Prop :=
  (∀ x : RegIdx, decode (wordXNN 0xE x.val 0x9E) = .ok (.keyd x) ∧ decode (wordXNN 0xE x.val 0xA1) = .ok (.keyu x)) ∧
  (∀ (x : RegIdx) (s : State), 15 < (s.getV x).toNat →
    exec (.keyd x) s = .next (s.faulted (.keyIndexOutOfRange (s.getV x)) (some (wordXNN 0xE x.val 0x9E))) ∧
    exec (.keyu x) s = .next (s.faulted (.keyIndexOutOfRange (s.getV x)) (some (wordXNN 0xE x.val 0xA1)))) ∧
  (∀ (x k : RegIdx) (s : State), (s.getV x).toNat = k.val →
    exec (.keyd x) s = .next { s with pc := if s.keys[k.val] = true then s.pc + 4 else s.pc + 2 } ∧
    exec (.keyu x) s = .next { s with pc := if s.keys[k.val] = true then s.pc + 2 else s.pc + 4 })

/-- GETK: the four transitions of R156, each with the whole next state. Before a key is latched: no key pressed, or `k`
the lowest pressed key; after: the latched key `k` still held, or released. -/
def Obligations.GetkTransitions : Prop :=
  (∀ x : RegIdx, decode (wordXNN 0xF x.val 0x0A) = .ok (.getk x)) ∧
  (∀ (x : RegIdx) (s : State), s.waitingRelease = false → (∀ k : RegIdx, s.keys[k.val] = false) →
    exec (.getk x) s = .next { s with blocked := true }) ∧
  (∀ (x k : RegIdx) (s : State), s.waitingRelease = false → s.keys[k.val] = true →
    (∀ j : RegIdx, j < k → s.keys[j.val] = false) →
    exec (.getk x) s =
      .next { s with v := s.v.set x.val (BitVec.ofNat 8 k.val), waitingRelease := true, blocked := true }) ∧
  (∀ (x k : RegIdx) (s : State), s.waitingRelease = true → (s.getV x).toNat = k.val → s.keys[k.val] = true →
    exec (.getk x) s = .next s) ∧
  (∀ (x k : RegIdx) (s : State), s.waitingRelease = true → (s.getV x).toNat = k.val → s.keys[k.val] = false →
    exec (.getk x) s = .next { s with pc := s.pc + 2, waitingRelease := false, blocked := false })

/-- While the host presses no key, a core at a GETK waits for ever: any number of steps return `Ok` and leave it at the
same instruction, blocked, with nothing else changed. -/
def Obligations.GetkWaitsWhileNoKeyPressed : Prop :=
  ∀ (n : Nat) (x : RegIdx) (s : State), s.runsNext (.getk x) → s.waitingRelease = false →
    (∀ k : RegIdx, s.keys[k.val] = false) →
    SafeRun (n + 1) s ∧
      Host.Core.run Sys2Proof.core (n + 1) s =
        (Host.Outcome.next { s with blocked := true } : Host.Outcome State Fault Refusal)

/-- One press and release of a key completes a waiting GETK in two steps, with the key's number in `V[x]` and nothing
else changed. -/
def Obligations.PressThenReleaseCompletesGetk : Prop :=
  ∀ (x k : RegIdx) (s : State), s.runsNext (.getk x) → s.waitingRelease = false →
    (∀ j : RegIdx, s.keys[j.val] = false) →
    ∃ t t' u : State, setKey k.val true s = .next t ∧ step t = .next t' ∧ setKey k.val false t' = .next u ∧
      step u = .next { s with pc := s.pc + 2, v := s.v.set x.val (BitVec.ofNat 8 k.val), blocked := false }

/-- LD Vx,DT reads the delay timer rounded down; LD DT,Vx and LD ST,Vx write exactly the register's value; nothing else
changes. -/
def Obligations.TimerAccess : Prop :=
  (∀ x : RegIdx, decode (wordXNN 0xF x.val 0x07) = .ok (.ldVxDt x) ∧ decode (wordXNN 0xF x.val 0x15) = .ok (.ldDtVx x) ∧
    decode (wordXNN 0xF x.val 0x18) = .ok (.ldStVx x)) ∧
  (∀ (x : RegIdx) (s : State), 0 ≤ s.dt → s.dt ≤ 255 →
    ∃ b : Byte, (b.toNat : Rat) ≤ s.dt ∧ s.dt < (b.toNat : Rat) + 1 ∧
      exec (.ldVxDt x) s = .next { s with pc := s.pc + 2, v := s.v.set x.val b }) ∧
  (∀ (x : RegIdx) (s : State),
    exec (.ldDtVx x) s = .next { s with pc := s.pc + 2, dt := ((s.getV x).toNat : Rat) }) ∧
  (∀ (x : RegIdx) (s : State),
    exec (.ldStVx x) s = .next { s with pc := s.pc + 2, st := ((s.getV x).toNat : Rat) } ∧
    ∀ t, exec (.ldStVx x) s = .next t → (t.soundActive = true ↔ 0 < (s.getV x).toNat))

/-- `Tick(dt)`: each timer down by TIMER_SCALE times `dt` on its own, clamped at zero, whether or not the core is
halted or blocked, and nothing else changes; a negative `dt` is refused. The statement holds for every value of the
scale, of which nothing is known. -/
def Obligations.TickCountsDownClamped : Prop :=
  (∀ dt s, tick dt s = tickAt Config.timerScale dt s) ∧
  (∀ (scale dt : Rat) (s : State), dt < 0 → tickAt scale dt s = .refused (.negativeElapsedTime dt)) ∧
  (∀ (scale dt : Rat) (s : State), 0 ≤ scale → 0 ≤ dt →
    ∃ d e : Rat, tickAt scale dt s = .next { s with dt := d, st := e } ∧
      (scale * dt ≤ s.dt → d = s.dt - scale * dt) ∧ (s.dt < scale * dt → d = 0) ∧
      (scale * dt ≤ s.st → e = s.st - scale * dt) ∧ (s.st < scale * dt → e = 0))

/-- No step counts a timer down: a step changes `DT` only by LD DT,Vx and `ST` only by LD ST,Vx, to the register's
value. -/
def Obligations.StepsNeverCountTimersDown : Prop :=
  ∀ s t : State, step s = .next t →
    (t.dt = s.dt ∨ ∃ x, s.runsNext (.ldDtVx x) ∧ t.dt = ((s.getV x).toNat : Rat)) ∧
    (t.st = s.st ∨ ∃ x, s.runsNext (.ldStVx x) ∧ t.st = ((s.getV x).toNat : Rat))

/-! ### Index register and memory -/

/-- LD I, ADD I,Vx and LD F,Vx: the new `I`, wrapping at 0x1000, no flag, nothing else; a digit above 15 takes
FontIndexOutOfRange. LD F,Vx is here with the default FONT_BASE, and with any font in `FontIsAParameter` (log 10). -/
def Obligations.IndexRegisterWrites : Prop :=
  (∀ (nnn : Addr12) (s : State), decode (wordNNN 0xA nnn.toNat) = .ok (.ldI nnn) ∧
    exec (.ldI nnn) s = .next { s with pc := s.pc + 2, i := nnn }) ∧
  (∀ x : RegIdx, decode (wordXNN 0xF x.val 0x1E) = .ok (.addI x) ∧ decode (wordXNN 0xF x.val 0x29) = .ok (.ldF x)) ∧
  (∀ (x : RegIdx) (s : State), ∃ a : Addr12, a.toNat = (s.i.toNat + (s.getV x).toNat) % 0x1000 ∧
    exec (.addI x) s = .next { s with pc := s.pc + 2, i := a }) ∧
  (∀ (x : RegIdx) (s : State), 15 < (s.getV x).toNat →
    exec (.ldF x) s = .next (s.faulted (.fontIndexOutOfRange (s.getV x)) (some (wordXNN 0xF x.val 0x29)))) ∧
  (∀ (x : RegIdx) (s : State), (s.getV x).toNat ≤ 15 →
    ∃ a : Addr12, a.toNat = Config.fontBase + 5 * (s.getV x).toNat ∧
      exec (.ldF x) s = .next { s with pc := s.pc + 2, i := a })

/-- BCD: hundreds, tens and ones at `I`, `I + 1`, `I + 2`, every other byte and all else as before; a digit above 0xFFF
takes MemoryOutOfRange at 0x1000 and nothing is written. -/
def Obligations.BcdStoresThreeDigits : Prop :=
  (∀ x : RegIdx, decode (wordXNN 0xF x.val 0x33) = .ok (.bcd x)) ∧
  (∀ (x : RegIdx) (s : State), 0xFFE ≤ s.i.toNat →
    exec (.bcd x) s = .next (s.faulted (.memoryOutOfRange 0x1000) (some (wordXNN 0xF x.val 0x33)))) ∧
  (∀ (x : RegIdx) (s : State), Memory.wf s.mem = true → s.i.toNat < 0xFFE →
    ∃ m : Memory, exec (.bcd x) s = .next { s with pc := s.pc + 2, mem := m } ∧
      (Memory.read m s.i.toNat).toNat = (s.getV x).toNat / 100 ∧
      (Memory.read m (s.i.toNat + 1)).toNat = (s.getV x).toNat / 10 % 10 ∧
      (Memory.read m (s.i.toNat + 2)).toNat = (s.getV x).toNat % 10 ∧
      ∀ a, (a < s.i.toNat ∨ s.i.toNat + 2 < a) → Memory.read m a = s.byte a)

/-- LD [I],Vx: byte `I + k` becomes `V[k]` for `k` from 0 to `x`, every other byte and all else (also `I`) as before; a
last byte above 0xFFF takes MemoryOutOfRange at 0x1000 and nothing is written. -/
def Obligations.RegisterDump : Prop :=
  (∀ x : RegIdx, decode (wordXNN 0xF x.val 0x55) = .ok (.storeRegs x)) ∧
  (∀ (x : RegIdx) (s : State), 0xFFF < s.i.toNat + x.val →
    exec (.storeRegs x) s = .next (s.faulted (.memoryOutOfRange 0x1000) (some (wordXNN 0xF x.val 0x55)))) ∧
  (∀ (x : RegIdx) (s : State), Memory.wf s.mem = true → s.i.toNat + x.val ≤ 0xFFF →
    ∃ m : Memory, exec (.storeRegs x) s = .next { s with pc := s.pc + 2, mem := m } ∧
      (∀ k : RegIdx, k ≤ x → Memory.read m (s.i.toNat + k.val) = s.getV k) ∧
      ∀ a, (a < s.i.toNat ∨ s.i.toNat + x.val < a) → Memory.read m a = s.byte a)

/-- LD Vx,[I]: `V[k]` becomes byte `I + k` for `k` from 0 to `x`, every other register and all else (also `I` and
memory) as before; a last byte above 0xFFF takes MemoryOutOfRange at 0x1000 and no register is written. -/
def Obligations.RegisterLoad : Prop :=
  (∀ x : RegIdx, decode (wordXNN 0xF x.val 0x65) = .ok (.loadRegs x)) ∧
  (∀ (x : RegIdx) (s : State), 0xFFF < s.i.toNat + x.val →
    exec (.loadRegs x) s = .next (s.faulted (.memoryOutOfRange 0x1000) (some (wordXNN 0xF x.val 0x65)))) ∧
  (∀ (x : RegIdx) (s : State), s.i.toNat + x.val ≤ 0xFFF →
    ∃ v : Vector Byte 16, exec (.loadRegs x) s = .next { s with pc := s.pc + 2, v := v } ∧
      (∀ k : RegIdx, k ≤ x → v[k.val] = s.byte (s.i.toNat + k.val)) ∧
      ∀ k : RegIdx, x < k → v[k.val] = s.getV k)

/-- Registers dumped by LD [I],Vx and loaded again by LD Vy,[I] with `y <= x` come back, whatever happened to the
registers in between. -/
def Obligations.DumpThenLoadRestores : Prop :=
  ∀ (x y k : RegIdx) (s t u : State), Memory.wf s.mem = true → s.i.toNat + x.val ≤ 0xFFF → y ≤ x → k ≤ y →
    exec (.storeRegs x) s = .next t → u.mem = t.mem → u.i = t.i →
    ∃ u', exec (.loadRegs y) u = .next u' ∧ u'.getV k = s.getV k

/-- The fetch of a step sees every data store of the steps before it: in any run through states that meet the invariant
(`StepKeepsInv`), the word fetched at `PC` in program space is made of what BCD or LD [I],Vx last stored in each of its two
bytes, at any earlier step, or of what the byte held at the start where none stored there; and the step runs what that word
decodes to. In particular LD [I],Vx over the two bytes after itself is followed by the instruction those bytes now hold. -/
def Obligations.FetchSeesEarlierStores : Prop :=
  (∀ (σ : Nat → State) (k : Nat) (b0 b1 : Byte), (∀ j ≤ k, Inv (σ j)) → (∀ j < k, step (σ j) = .next (σ (j + 1))) →
    (σ k).halted = false → 0x200 ≤ (σ k).pc.toNat → (σ k).pc.toNat + 2 ≤ 0xEA0 →
    lastStored σ k (σ k).pc.toNat b0 → lastStored σ k ((σ k).pc.toNat + 1) b1 →
    fetch (σ k) = .ok (wordOfBytes b0 b1) ∧
      (∀ i, decode (wordOfBytes b0 b1) = .ok i → step (σ k) = exec i (σ k)) ∧
      ∀ e, decode (wordOfBytes b0 b1) = .error e →
        step (σ k) = .next ((σ k).faulted (.unknownOpcode (wordOfBytes b0 b1)) (some (wordOfBytes b0 b1)))) ∧
  (∀ (x : RegIdx) (i : Instr) (s : State), Memory.wf s.mem = true → s.runsNext (.storeRegs x) → 1 ≤ x.val →
    s.i.toNat = s.pc.toNat + 2 → s.pc.toNat + 4 ≤ 0xEA0 → decode (wordOfBytes (s.getV 0) (s.getV 1)) = .ok i →
    ∃ t, step s = .next t ∧ step t = exec i t)

/-! ### Display -/

/-- CLS: the 256 framebuffer bytes are 0 and `display_changed` is true; every other byte and all else as before. It
raises no fault, and the ignored bits play no part. -/
def Obligations.ClsClearsFramebufferOnly : Prop :=
  ∀ (h : Nibble) (s : State), decode (wordXNN 0x0 h.toNat 0xE0) = .ok (.cls h) ∧
    (Memory.wf s.mem = true →
      ∃ m : Memory, exec (.cls h) s = .next { s with pc := s.pc + 2, mem := m, displayChanged := true } ∧
        (∀ a, 0xF00 ≤ a → a ≤ 0xFFF → Memory.read m a = 0) ∧
        ∀ a, (a < 0xF00 ∨ 0xFFF < a) → Memory.read m a = s.byte a)

/-- DRW whose accesses all exist completes, also where the sprite overlaps the framebuffer bytes it writes: `VF` is 0 or
1, `display_changed` is true, every byte it does not write and all else is as before. -/
def Obligations.DrwFrame : Prop :=
  ∀ (x y : RegIdx) (n : Nat) (s : State), Memory.wf s.mem = true → n ≤ 15 →
    s.drawInRange (s.getV x) (s.getV y) n →
    ∃ (m : Memory) (f : Byte), (f = 0 ∨ f = 1) ∧
      exec (.drw x y n) s =
        .next { s with pc := s.pc + 2, mem := m, v := s.v.set 15 f, displayChanged := true } ∧
      ∀ a, ¬ drawWrites (s.getV x) (s.getV y) n a → Memory.read m a = s.byte a

/-- DRW with a sprite apart from the bytes it writes XORs exactly the sprite's set pixels into the display, with the
leftmost pixel the most significant bit, vertical wrap and no horizontal wrap or clip; `VF` is 1 exactly when a pixel
that was on is turned off, and else 0. -/
def Obligations.DrwXorsSpritePixels : Prop :=
  ∀ (x y : RegIdx) (n : Nat) (s : State), Memory.wf s.mem = true → n ≤ 15 →
    s.drawInRange (s.getV x) (s.getV y) n → s.spriteApart (s.getV x) (s.getV y) n →
    ∃ t, exec (.drw x y n) s = .next t ∧ t.displayChanged = true ∧
      (∀ p < 2048, t.fbPixel p = true ↔ Xor (s.fbPixel p = true) (s.spriteHits (s.getV x) (s.getV y) n p)) ∧
      (t.getV 15 = 1 ↔ ∃ p < 2048, s.fbPixel p = true ∧ s.spriteHits (s.getV x) (s.getV y) n p) ∧
      (t.getV 15 = 0 ↔ ¬ ∃ p < 2048, s.fbPixel p = true ∧ s.spriteHits (s.getV x) (s.getV y) n p)

/-- DRW whose sprite may overlap the framebuffer: the rows are drawn one after another through memories `m 0`, …, `m n`.
Row `k` is read from `m k`, so it sees what rows 0 to `k - 1` wrote, and `m (k + 1)` is `m k` with exactly the set pixels
of that row XORed into the display; `m n` is the memory after the draw. `VF` is 1 exactly when, in some row, a pixel that
was on just before that row is turned off, and else 0. -/
def Obligations.DrwRowsSeeEarlierRows : Prop :=
  ∀ (x y : RegIdx) (n : Nat) (s : State), Memory.wf s.mem = true → n ≤ 15 →
    s.drawInRange (s.getV x) (s.getV y) n →
    ∃ (m : Nat → Memory) (f : Byte), m 0 = s.mem ∧
      exec (.drw x y n) s =
        .next { s with pc := s.pc + 2, mem := m n, v := s.v.set 15 f, displayChanged := true } ∧
      (∀ k < n, ∀ p < 2048, (m (k + 1)).fbPixel p = true ↔
        Xor ((m k).fbPixel p = true) ((m k).rowHits s.i (s.getV x) (s.getV y) k p)) ∧
      (∀ k < n, ∀ a, (a < 0xF00 ∨ 0xFFF < a) → Memory.read (m (k + 1)) a = Memory.read (m k) a) ∧
      (f = 1 ↔ ∃ k < n, ∃ p < 2048, (m k).fbPixel p = true ∧ (m k).rowHits s.i (s.getV x) (s.getV y) k p) ∧
      (f = 0 ↔ ¬ ∃ k < n, ∃ p < 2048, (m k).fbPixel p = true ∧ (m k).rowHits s.i (s.getV x) (s.getV y) k p)

/-- DRW that touches an address above 0xFFF takes MemoryOutOfRange with the first such address in the order of the
pseudocode; memory, the screen with it, is as before. In particular any sprite of a row or more at display row 31 with
`V[x]` from 57 up faults. -/
def Obligations.DrwBeyondMemoryFaults : Prop :=
  (∀ (x y : RegIdx) (n : Nat), n ≤ 15 → decode (wordXYN 0xD x.val y.val n) = .ok (.drw x y n)) ∧
  (∀ (x y : RegIdx) (n a : Nat) (s : State), n ≤ 15 →
    (s.drawAccesses (s.getV x) (s.getV y) n).find? (fun a => decide (0x1000 ≤ a)) = some a →
    exec (.drw x y n) s = .next (s.faulted (.memoryOutOfRange a) (some (wordXYN 0xD x.val y.val n)))) ∧
  (∀ (x y : RegIdx) (n : Nat) (s : State), ¬ s.drawInRange (s.getV x) (s.getV y) n →
    ∃ a, (s.drawAccesses (s.getV x) (s.getV y) n).find? (fun a => decide (0x1000 ≤ a)) = some a) ∧
  (∀ (x y : RegIdx) (n : Nat) (s : State), 0 < n → n ≤ 15 → (s.getV y).toNat % 32 = 31 → 57 ≤ (s.getV x).toNat →
    ∃ t, exec (.drw x y n) s = .next t ∧ t.halted = true ∧ t.mem = s.mem)

/-- DRW of height 0 draws nothing, also with coordinates and an `I` at which a row would fault: `VF` is 0 and
`display_changed` is set. -/
def Obligations.DrwOfNoRowsDrawsNothing : Prop :=
  ∀ (x y : RegIdx) (s : State), decode (wordXYN 0xD x.val y.val 0) = .ok (.drw x y 0) ∧
    exec (.drw x y 0) s = .next { s with pc := s.pc + 2, v := s.v.set 15 0, displayChanged := true }

/-- XOR is its own inverse: the same sprite drawn again at the same position restores every byte of memory. The second
draw sets `VF` to 1 exactly when a pixel of the sprite was off before the first, so that the first turned it on; else to
0. This clause follows the pixel rule R195 against the last sentence of R198, which says without condition that the second
draw sets `VF` iff the sprite has a pixel set; that sentence is stated under its condition, that all of the sprite's pixels
were off before the first draw (log 22). -/
def Obligations.DrawingTwiceRestoresDisplay : Prop :=
  ∀ (x y x' y' : RegIdx) (n : Nat) (s t : State), Memory.wf s.mem = true → n ≤ 15 →
    s.drawInRange (s.getV x) (s.getV y) n → s.spriteApart (s.getV x) (s.getV y) n →
    exec (.drw x y n) s = .next t → t.getV x' = s.getV x → t.getV y' = s.getV y →
    ∃ u, exec (.drw x' y' n) t = .next u ∧ (∀ a, u.byte a = s.byte a) ∧
      (u.getV 15 = 1 ↔ ∃ k < n, ∃ j < 8, s.spritePixel k j = true ∧
        s.fbPixel (landing (s.getV x) (s.getV y) k j) = false) ∧
      (u.getV 15 = 0 ↔ ¬ ∃ k < n, ∃ j < 8, s.spritePixel k j = true ∧
        s.fbPixel (landing (s.getV x) (s.getV y) k j) = false) ∧
      ((∀ k < n, ∀ j < 8, s.spritePixel k j = true → s.fbPixel (landing (s.getV x) (s.getV y) k j) = false) →
        (u.getV 15 = 1 ↔ ∃ k < n, ∃ j < 8, s.spritePixel k j = true))

/-! ### Memory as data -/

/-- The form is canonical: memories that read alike are equal. Memory right after reset, with any legal font, is
canonical and reads FONT_DATA at FONT_BASE and 0 everywhere else; the reset state with the default font is `State.reset`. -/
def Obligations.EqualReadsEqualMemories : Prop :=
  (∀ m m' : Memory, Memory.wf m = true → Memory.wf m' = true → (∀ a, Memory.read m a = Memory.read m' a) → m = m') ∧
  (∀ font : Font, font.wf = true → Memory.wf (State.resetAt font).mem = true ∧
    (∀ a, (a < font.base ∨ font.base + 80 ≤ a) → (State.resetAt font).byte a = 0) ∧
    ∀ d k, d < 16 → k < 5 → some ((State.resetAt font).byte (font.base + 5 * d + k)) = font.data[5 * d + k]?) ∧
  State.resetAt Config.font = State.reset

/-! ### Invariants -/

/-- The state after reset meets the invariant. -/
def Obligations.ResetSatisfiesInv : Prop := Inv State.reset

/-- Every step keeps the invariant: memory canonical, `SP` even and in its region, timers in range, the key-wait flags
legal, a blocked core at its GETK with a key latched, a recorded fault on a halted core only. -/
def Obligations.StepKeepsInv : Prop :=
  ∀ s t : State, Inv s → step s = .next t → Inv t

/-- So does every operation of the host, a step among them, with any legal font and any TIMER_SCALE as the parameters. -/
def Obligations.HostOperationsKeepInv : Prop :=
  ∀ (p : Params) (s t : State) (op : HostOp), p.font.wf = true → Inv s → performAt p op s = .next t → Inv t

/-- Every state reached from reset, by steps and host operations in any order and with any legal font and any TIMER_SCALE,
meets the invariant; so while the core is blocked and running, its next step executes a GETK and no other instruction. -/
def Obligations.ReachableStatesWaitOnlyAtGetk : Prop :=
  (∀ (p : Params) (s : State), p.font.wf = true → Reachable p s → Inv s) ∧
  (∀ (p : Params) (s : State), p.font.wf = true → Reachable p s → s.blocked = true → s.halted = false →
    ∃ x, s.runsNext (.getk x) ∧ stepAt p.font s = exec (.getk x) s)

/-! ### Whole-machine rules -/

/-- The instructions that may change `V[r]`, by the register they name: those of 10_state.md R33, and for `VF` also
those of R34. Every other step leaves the register alone. -/
def Obligations.OnlyListedInstructionsWriteV : Prop :=
  ∀ (s t : State) (r : RegIdx), step s = .next t → t.getV r ≠ s.getV r →
    ∃ i, s.runsNext i ∧
      ((∃ nn, i = .ldImm r nn ∨ i = .addImm r nn ∨ i = .rnd r nn) ∨
       (∃ y, i = .ldReg r y ∨ i = .or r y ∨ i = .and r y ∨ i = .xor r y ∨ i = .add r y ∨ i = .sub r y ∨ i = .subn r y) ∨
       (∃ l, i = .shr r l ∨ i = .shl r l) ∨ i = .ldVxDt r ∨ i = .getk r ∨ (∃ x, r ≤ x ∧ i = .loadRegs x) ∨
       (r = 15 ∧ ∃ x y l n, i = .add x y ∨ i = .sub x y ∨ i = .subn x y ∨ i = .shr x l ∨ i = .shl x l ∨ i = .drw x y n))

/-- `I` changes only by LD I, ADD I,Vx and LD F,Vx. -/
def Obligations.OnlyThreeInstructionsWriteI : Prop :=
  ∀ s t : State, step s = .next t → t.i ≠ s.i →
    ∃ i, s.runsNext i ∧ ((∃ nnn, i = .ldI nnn) ∨ (∃ x, i = .addI x ∨ i = .ldF x))

/-- `SP` changes only by CALL, down by 2, and by RET, up by 2. -/
def Obligations.OnlyCallAndRetMoveSp : Prop :=
  ∀ s t : State, step s = .next t → t.sp ≠ s.sp →
    (∃ nnn, s.runsNext (.call nnn) ∧ t.sp = s.sp - 2) ∨ (∃ h, s.runsNext (.ret h) ∧ t.sp = s.sp + 2)

/-- A step changes memory only by CALL in its two stack bytes, CLS in the framebuffer, DRW in the bytes it draws on,
BCD in the three bytes at `I`, and LD [I],Vx in the `x + 1` bytes at `I`. -/
def Obligations.OnlyStoresChangeMemory : Prop :=
  ∀ (s t : State) (a : Nat), Memory.wf s.mem = true → step s = .next t → t.byte a ≠ s.byte a →
    (∃ nnn, s.runsNext (.call nnn) ∧ (a = (s.sp - 2).toNat ∨ a = (s.sp - 2).toNat + 1)) ∨
    (∃ h, s.runsNext (.cls h) ∧ 0xF00 ≤ a ∧ a < 0x1000) ∨
    (∃ x y n, s.runsNext (.drw x y n) ∧ drawWrites (s.getV x) (s.getV y) n a) ∨
    (∃ x, s.runsNext (.bcd x) ∧ s.i.toNat ≤ a ∧ a ≤ s.i.toNat + 2) ∨
    (∃ x, s.runsNext (.storeRegs x) ∧ s.i.toNat ≤ a ∧ a ≤ s.i.toNat + x.val)

/-- A step sets `display_changed` only by CLS and DRW and never clears it: data stores into the framebuffer do not set
it. -/
def Obligations.OnlyClsAndDrwMarkDisplay : Prop :=
  ∀ s t : State, step s = .next t →
    (s.displayChanged = true → t.displayChanged = true) ∧
    (t.displayChanged ≠ s.displayChanged → (∃ h, s.runsNext (.cls h)) ∨ (∃ x y n, s.runsNext (.drw x y n)))

/-- No step writes a keypad bit, and only GETK writes `blocked` and `waiting_release`. -/
def Obligations.StepsLeaveKeypadAlone : Prop :=
  ∀ s t : State, step s = .next t →
    t.keys = s.keys ∧
    ((t.blocked ≠ s.blocked ∨ t.waitingRelease ≠ s.waitingRelease) → ∃ x, s.runsNext (.getk x))

/-! ### The parameters -/

/-- FONT_BASE and FONT_DATA are arguments. FONT_BASE reaches LD F,Vx alone: with any legal font it points `I` at
`FONT_BASE + 5 * V[x]` and does nothing else, or takes FontIndexOutOfRange; every other instruction is the same with every
font. `step` and `perform` are the step and the operations with the default font and the open TIMER_SCALE. -/
def Obligations.FontIsAParameter : Prop :=
  (∀ (font : Font) (x : RegIdx) (s : State), font.wf = true → (s.getV x).toNat ≤ 15 →
    ∃ a : Addr12, a.toNat = font.base + 5 * (s.getV x).toNat ∧
      execAt font (.ldF x) s = .next { s with pc := s.pc + 2, i := a }) ∧
  (∀ (font : Font) (x : RegIdx) (s : State), 15 < (s.getV x).toNat →
    execAt font (.ldF x) s = .next (s.faulted (.fontIndexOutOfRange (s.getV x)) (some (wordXNN 0xF x.val 0x29)))) ∧
  (∀ (font : Font) (i : Instr) (s : State), (∀ x, i ≠ .ldF x) → execAt font i s = exec i s) ∧
  (∀ (font : Font) (i : Instr) (s : State), s.runsNext i → stepAt font s = execAt font i s) ∧
  (∀ (font : Font) (s : State), (∀ i, ¬ s.runsNext i) → stepAt font s = step s) ∧
  (∀ s : State, stepAt Config.font s = step s) ∧
  (∀ (op : HostOp) (s : State), perform op s = performAt ⟨Config.font, Config.timerScale⟩ op s)

/-! ### The host interface -/

/-- `Reset(image)`, with any legal font and any TIMER_SCALE: every state element at its reset value, the image's bytes in
file order from 0x200, FONT_DATA at FONT_BASE and zeroes elsewhere; an image that does not fit in program space is
refused. -/
def Obligations.ResetLoadsImage : Prop :=
  (∀ (p : Params) (image : List Byte) (s : State), 3232 < image.length →
    performAt p (.reset image) s = .refused (.imageTooLong image.length)) ∧
  (∀ (p : Params) (image : List Byte) (s : State), p.font.wf = true → image.length ≤ 3232 →
    ∃ t, performAt p (.reset image) s = .next t ∧
      (∀ k, (h : k < image.length) → t.byte (0x200 + k) = image[k]) ∧
      (∀ a, (a < 0x200 ∨ 0x200 + image.length ≤ a) →
        t.byte a = if p.font.base ≤ a then p.font.data.getD (a - p.font.base) 0 else 0) ∧
      (∀ r : RegIdx, t.getV r = 0) ∧ (∀ k : RegIdx, t.keys[k.val] = false) ∧
      t.i = 0 ∧ t.pc = 0x200 ∧ t.sp = 0xF00 ∧ t.dt = 0 ∧ t.st = 0 ∧ t.blocked = false ∧ t.waitingRelease = false ∧
      t.halted = false ∧ t.displayChanged = false ∧ t.fault = none)

/-- `SetKey(k, pressed)` writes that key bit and nothing else; a number above 15 is refused. -/
def Obligations.SetKeyWritesOneKey : Prop :=
  (∀ (k : Nat) (pressed : Bool) (s : State), 15 < k →
    perform (.setKey k pressed) s = .refused (.keyNumberOutOfRange k)) ∧
  (∀ (k : RegIdx) (pressed : Bool) (s : State), ∃ keys : Vector Bool 16,
    perform (.setKey k.val pressed) s = .next { s with keys := keys } ∧ keys[k.val] = pressed ∧
      ∀ j : RegIdx, j ≠ k → keys[j.val] = s.keys[j.val])

/-- `ClearDisplayChanged()` clears that flag only, `Halt()` sets `halted` only and the step after it returns `Halted`,
and the two reads change nothing. -/
def Obligations.ClearHaltAndReads : Prop :=
  ∀ s : State,
    perform .clearDisplayChanged s = .next { s with displayChanged := false } ∧
    perform .halt s = .next { s with halted := true } ∧ stepResult { s with halted := true } = .halted ∧
    perform .readStatus s = .next s ∧ perform .readFramebuffer s = .next s

/-- The status word, bit by bit; FAULT_CODE is 0 without a fault and the code of R210 with one. -/
def Obligations.StatusWordLayout : Prop :=
  ∀ s : State,
    s.statusWord.getLsbD 0 = s.halted ∧ s.statusWord.getLsbD 1 = s.blocked ∧
    s.statusWord.getLsbD 2 = s.waitingRelease ∧ s.statusWord.getLsbD 3 = s.displayChanged ∧
    (s.statusWord.getLsbD 4 = true ↔ 0 < s.st) ∧
    s.statusWord.toNat / 32 % 8 = 0 ∧ s.statusWord.toNat / 4096 = 0 ∧
    (s.fault = none → s.statusWord.toNat / 256 % 16 = 0) ∧
    ∀ r, s.fault = some r → s.statusWord.toNat / 256 % 16 =
      match r.fault with
      | .fetchOutOfRange _ => 1
      | .unknownOpcode _ => 2
      | .stackOverflow _ => 3
      | .stackUnderflow _ => 4
      | .fontIndexOutOfRange _ => 5
      | .keyIndexOutOfRange _ => 6
      | .memoryOutOfRange _ => 7
      | .randomModulusZero _ => 8

/-- `ReadFramebuffer()`: the 256 bytes from 0xF00 with the display-changed flag; bit `c mod 8` of byte
`8 * r + c div 8` of them is the pixel at column `c` and row `r`. It changes nothing. -/
def Obligations.FramebufferReadPort : Prop :=
  ∀ s : State, (readFramebuffer s).2 = s.displayChanged ∧ (readFramebuffer s).1.length = 256 ∧
    perform .readFramebuffer s = .next s ∧
    (∀ k, k < 256 → (readFramebuffer s).1[k]? = some (s.byte (0xF00 + k))) ∧
    ∀ c r, c < 64 → r < 32 → pixel s c r = ((readFramebuffer s).1.getD (8 * r + c / 8) 0).getLsbD (c % 8) ∧
      pixel s c r = s.fbPixel (64 * r + c)
end

