-- ==== Sys2Proof/Laws/State.lean ====
section
/-! SUPPORT. The small lemmas of the state: one per field per update, so that no later proof unfolds a record update,
and what a register read sees after a register write. -/

namespace Sys2Proof.Machine

variable (s : State) (x r : RegIdx) (b : Byte) (c : Bool) (f : Fault) (op : Option Word)

/-! ### `State.setV` -/

@[simp] theorem setV_mem : (s.setV x b).mem = s.mem := rfl
@[simp] theorem setV_v : (s.setV x b).v = s.v.set x.val b := rfl
@[simp] theorem setV_i : (s.setV x b).i = s.i := rfl
@[simp] theorem setV_pc : (s.setV x b).pc = s.pc := rfl
@[simp] theorem setV_sp : (s.setV x b).sp = s.sp := rfl
@[simp] theorem setV_dt : (s.setV x b).dt = s.dt := rfl
@[simp] theorem setV_st : (s.setV x b).st = s.st := rfl
@[simp] theorem setV_keys : (s.setV x b).keys = s.keys := rfl
@[simp] theorem setV_blocked : (s.setV x b).blocked = s.blocked := rfl
@[simp] theorem setV_waitingRelease : (s.setV x b).waitingRelease = s.waitingRelease := rfl
@[simp] theorem setV_halted : (s.setV x b).halted = s.halted := rfl
@[simp] theorem setV_displayChanged : (s.setV x b).displayChanged = s.displayChanged := rfl
@[simp] theorem setV_fault : (s.setV x b).fault = s.fault := rfl
@[simp] theorem setV_draws : (s.setV x b).draws = s.draws := rfl
@[simp] theorem setV_byte (a : Nat) : (s.setV x b).byte a = s.byte a := rfl
@[simp] theorem setV_word (a : Nat) : (s.setV x b).word a = s.word a := rfl

/-- A register read after a register write: the value written in that register, the old value in every other. -/
theorem getV_setV : (s.setV x b).getV r = if r = x then b else s.getV r := by
  simp only [State.getV, State.setV, Vector.getElem_set, eq_comm (a := x.val), Fin.val_inj]

@[simp] theorem getV_setV_same : (s.setV x b).getV x = b := by simp [getV_setV]

theorem getV_setV_of_ne (h : r ≠ x) : (s.setV x b).getV r = s.getV r := by simp [getV_setV, h]

/-! ### `State.advancePc` and `State.repeatInstr` -/

@[simp] theorem advancePc_mem : s.advancePc.mem = s.mem := rfl
@[simp] theorem advancePc_v : s.advancePc.v = s.v := rfl
@[simp] theorem advancePc_i : s.advancePc.i = s.i := rfl
@[simp] theorem advancePc_pc : s.advancePc.pc = s.pc + 2 := rfl
@[simp] theorem advancePc_sp : s.advancePc.sp = s.sp := rfl
@[simp] theorem advancePc_dt : s.advancePc.dt = s.dt := rfl
@[simp] theorem advancePc_st : s.advancePc.st = s.st := rfl
@[simp] theorem advancePc_keys : s.advancePc.keys = s.keys := rfl
@[simp] theorem advancePc_blocked : s.advancePc.blocked = s.blocked := rfl
@[simp] theorem advancePc_waitingRelease : s.advancePc.waitingRelease = s.waitingRelease := rfl
@[simp] theorem advancePc_halted : s.advancePc.halted = s.halted := rfl
@[simp] theorem advancePc_displayChanged : s.advancePc.displayChanged = s.displayChanged := rfl
@[simp] theorem advancePc_fault : s.advancePc.fault = s.fault := rfl
@[simp] theorem advancePc_draws : s.advancePc.draws = s.draws := rfl
@[simp] theorem advancePc_getV : s.advancePc.getV r = s.getV r := rfl
@[simp] theorem advancePc_byte (a : Nat) : s.advancePc.byte a = s.byte a := rfl
@[simp] theorem advancePc_word (a : Nat) : s.advancePc.word a = s.word a := rfl
@[simp] theorem advancePc_indexAddr (k : Nat) : s.advancePc.indexAddr k = s.indexAddr k := rfl
@[simp] theorem advancePc_keyAt (k : Nat) : s.advancePc.keyAt k = s.keyAt k := rfl

@[simp] theorem repeatInstr_mem : s.repeatInstr.mem = s.mem := rfl
@[simp] theorem repeatInstr_v : s.repeatInstr.v = s.v := rfl
@[simp] theorem repeatInstr_i : s.repeatInstr.i = s.i := rfl
@[simp] theorem repeatInstr_pc : s.repeatInstr.pc = s.pc - 2 := rfl
@[simp] theorem repeatInstr_sp : s.repeatInstr.sp = s.sp := rfl
@[simp] theorem repeatInstr_dt : s.repeatInstr.dt = s.dt := rfl
@[simp] theorem repeatInstr_st : s.repeatInstr.st = s.st := rfl
@[simp] theorem repeatInstr_keys : s.repeatInstr.keys = s.keys := rfl
@[simp] theorem repeatInstr_blocked : s.repeatInstr.blocked = s.blocked := rfl
@[simp] theorem repeatInstr_waitingRelease : s.repeatInstr.waitingRelease = s.waitingRelease := rfl
@[simp] theorem repeatInstr_halted : s.repeatInstr.halted = s.halted := rfl
@[simp] theorem repeatInstr_displayChanged : s.repeatInstr.displayChanged = s.displayChanged := rfl
@[simp] theorem repeatInstr_fault : s.repeatInstr.fault = s.fault := rfl
@[simp] theorem repeatInstr_draws : s.repeatInstr.draws = s.draws := rfl
@[simp] theorem repeatInstr_getV : s.repeatInstr.getV r = s.getV r := rfl

/-- The fetch advance undone: the instruction's own address again. -/
theorem add_two_sub_two (pc : Word) : pc + 2 - 2 = pc := by bv_omega

/-! ### `State.skipIf` -/

/-- A skip moves `PC` alone. -/
theorem skipIf_eq : s.skipIf c = { s with pc := if c = true then s.pc + 2 else s.pc } := by
  cases c <;> rfl

/-! ### `takeFault` -/

@[simp] theorem takeFault_mem : (takeFault f op s).mem = s.mem := rfl
@[simp] theorem takeFault_v : (takeFault f op s).v = s.v := rfl
@[simp] theorem takeFault_i : (takeFault f op s).i = s.i := rfl
@[simp] theorem takeFault_pc : (takeFault f op s).pc = s.pc := rfl
@[simp] theorem takeFault_sp : (takeFault f op s).sp = s.sp := rfl
@[simp] theorem takeFault_dt : (takeFault f op s).dt = s.dt := rfl
@[simp] theorem takeFault_st : (takeFault f op s).st = s.st := rfl
@[simp] theorem takeFault_keys : (takeFault f op s).keys = s.keys := rfl
@[simp] theorem takeFault_blocked : (takeFault f op s).blocked = s.blocked := rfl
@[simp] theorem takeFault_waitingRelease : (takeFault f op s).waitingRelease = s.waitingRelease := rfl
@[simp] theorem takeFault_halted : (takeFault f op s).halted = true := rfl
@[simp] theorem takeFault_displayChanged : (takeFault f op s).displayChanged = s.displayChanged := rfl
@[simp] theorem takeFault_fault : (takeFault f op s).fault = some ⟨f, s.pc, op⟩ := rfl
@[simp] theorem takeFault_draws : (takeFault f op s).draws = s.draws := rfl
@[simp] theorem takeFault_getV : (takeFault f op s).getV r = s.getV r := rfl
@[simp] theorem takeFault_byte (a : Nat) : (takeFault f op s).byte a = s.byte a := rfl

/-! ### `setRegs` -/

/-- Consecutive register writes: register `k + j` holds `bs[j]`, every other its old value. -/
theorem getElem_setRegs (bs : List Byte) (k : Nat) (v : Vector Byte 16) (j : Nat) (hj : j < 16) :
    (setRegs k bs v)[j] = if h : k ≤ j ∧ j - k < bs.length then bs[j - k]'h.2 else v[j] := by
  induction bs generalizing k v with
  | nil => simp [setRegs]
  | cons b bs ih =>
    rw [setRegs, ih]
    by_cases h0 : j = k
    · subst h0; simp
    · by_cases h1 : k + 1 ≤ j
      · have e : j - k = (j - (k + 1)) + 1 := by omega
        have h2 : k ≤ j := by omega
        simp only [h1, h2, true_and, e, List.length_cons, Nat.add_lt_add_iff_right, List.getElem_cons_succ]
        simp [Ne.symm h0]
      · have h2 : ¬ k ≤ j := by omega
        simp [h1, h2, Ne.symm h0]

end Sys2Proof.Machine
end

