-- ==== Sys2Proof/Laws/Memory.lean ====
section
/-! SUPPORT. Memory as data: what a read sees after a write, and that every memory operation keeps the canonical form.
One spec lemma per operation; later proofs cite these and never unfold `Memory.write`. -/

namespace Sys2Proof.Machine

/-! ### The canonical form -/

/-- A canonical list is canonical from any lower bound. -/
theorem Memory.wfFrom_mono {lo lo' : Nat} {m : Memory} (h : lo' ≤ lo) (hw : Memory.wfFrom lo m = true) :
    Memory.wfFrom lo' m = true := by
  cases m with
  | nil => rfl
  | cons e m =>
    obtain ⟨k, b⟩ := e
    simp only [Memory.wfFrom, Bool.and_eq_true, decide_eq_true_eq] at hw ⊢
    exact ⟨⟨⟨by omega, hw.1.1.2⟩, hw.1.2⟩, hw.2⟩

/-- Below its bound a canonical list lists nothing. -/
theorem Memory.read_below {lo : Nat} {m : Memory} (hw : Memory.wfFrom lo m = true) {a : Nat} (h : a < lo) :
    Memory.read m a = Memory.unlisted a := by
  induction m generalizing lo with
  | nil => rfl
  | cons e m ih =>
    obtain ⟨k, b⟩ := e
    simp only [Memory.wfFrom, Bool.and_eq_true, decide_eq_true_eq] at hw
    rw [Memory.read, if_neg (by omega), ih hw.2 (by omega)]

/-- A read after a write: the value written at its address, the old byte everywhere else. -/
theorem Memory.read_write {lo : Nat} {m : Memory} (hw : Memory.wfFrom lo m = true) (a : Nat) (b : Byte) (a' : Nat) :
    Memory.read (Memory.write m a b) a' = if a' = a then b else Memory.read m a' := by
  induction m generalizing lo with
  | nil =>
    by_cases hb : b = Memory.unlisted a
    · by_cases h : a' = a <;> simp [Memory.write, Memory.read, hb, h]
    · by_cases h : a' = a <;> simp [Memory.write, Memory.read, hb, h, eq_comm (a := a)]
  | cons e m ih =>
    obtain ⟨k, c⟩ := e
    have hw' := hw
    simp only [Memory.wfFrom, Bool.and_eq_true, decide_eq_true_eq] at hw
    rw [Memory.write]
    split
    · rename_i hlt
      split
      · rename_i hb
        by_cases h : a' = a
        · subst h
          simp only [Memory.read, if_pos]
          rw [if_neg (by omega), Memory.read_below hw.2 (by omega), hb]
        · simp [h]
      · by_cases h : a' = a <;> simp [Memory.read, h, eq_comm (a := a)]
    · split
      · rename_i _ hk
        subst hk
        split
        · rename_i hb
          by_cases h : a' = a
          · subst h; rw [Memory.read_below hw.2 (by omega), if_pos rfl, hb]
          · simp [Memory.read, h, Ne.symm h]
        · by_cases h : a' = a
          · simp [Memory.read, h]
          · simp [Memory.read, h, Ne.symm h]
      · rename_i _ hk
        rw [Memory.read, Memory.read, ih hw.2]
        by_cases h : a' = a
        · subst h; simp [Ne.symm hk]
        · simp [h]

/-- Writing an address at or above the bound, and inside memory, keeps the form. -/
theorem Memory.wfFrom_write {lo : Nat} {m : Memory} (hw : Memory.wfFrom lo m = true) {a : Nat} (hlo : lo ≤ a)
    (ha : a < Config.memSize) (b : Byte) : Memory.wfFrom lo (Memory.write m a b) = true := by
  induction m generalizing lo with
  | nil =>
    rw [Memory.write]
    split
    · rfl
    · rename_i hb; simp [Memory.wfFrom, hlo, ha, hb]
  | cons e m ih =>
    obtain ⟨k, c⟩ := e
    simp only [Memory.wfFrom, Bool.and_eq_true, decide_eq_true_eq] at hw
    rw [Memory.write]
    split
    · rename_i hlt
      split
      · simpa [Memory.wfFrom] using hw
      · rename_i hb
        simp only [Memory.wfFrom, Bool.and_eq_true, decide_eq_true_eq]
        exact ⟨⟨⟨hlo, ha⟩, hb⟩, ⟨⟨by omega, hw.1.1.2⟩, hw.1.2⟩, hw.2⟩
    · split
      · rename_i _ hk
        subst hk
        split
        · exact Memory.wfFrom_mono (by omega) hw.2
        · rename_i hb
          simp only [Memory.wfFrom, Bool.and_eq_true, decide_eq_true_eq]
          exact ⟨⟨⟨hlo, ha⟩, hb⟩, hw.2⟩
      · simp only [Memory.wfFrom, Bool.and_eq_true, decide_eq_true_eq]
        exact ⟨hw.1, ih hw.2 (by omega)⟩

/-- A write keeps the canonical form. -/
theorem Memory.wf_write {m : Memory} (hw : Memory.wf m = true) {a : Nat} (ha : a < Config.memSize) (b : Byte) :
    Memory.wf (Memory.write m a b) = true :=
  Memory.wfFrom_write hw (Nat.zero_le a) ha b

/-- A read after a write, on a canonical memory. -/
theorem Memory.wf_read_write {m : Memory} (hw : Memory.wf m = true) (a : Nat) (b : Byte) (a' : Nat) :
    Memory.read (Memory.write m a b) a' = if a' = a then b else Memory.read m a' :=
  Memory.read_write hw a b a'

/-- A write of several bytes keeps the canonical form. -/
theorem Memory.wf_writeAll {m : Memory} (hw : Memory.wf m = true) (a : Nat) (bs : List Byte)
    (ha : a + bs.length ≤ Config.memSize) : Memory.wf (Memory.writeAll m a bs) = true := by
  induction bs generalizing m a with
  | nil => exact hw
  | cons b bs ih =>
    rw [List.length_cons] at ha
    exact ih (Memory.wf_write hw (by omega) b) (a + 1) (by omega)

/-- A read after a write of several bytes. -/
theorem Memory.read_writeAll {m : Memory} (hw : Memory.wf m = true) (a : Nat) (bs : List Byte)
    (ha : a + bs.length ≤ Config.memSize) (a' : Nat) :
    Memory.read (Memory.writeAll m a bs) a' =
      if h : a ≤ a' ∧ a' - a < bs.length then bs[a' - a]'h.2 else Memory.read m a' := by
  induction bs generalizing m a with
  | nil => simp [Memory.writeAll]
  | cons b bs ih =>
    rw [List.length_cons] at ha
    rw [Memory.writeAll, ih (Memory.wf_write hw (by omega) b) (a + 1) (by omega), Memory.wf_read_write hw]
    by_cases h0 : a' = a
    · subst h0; simp
    · by_cases h1 : a + 1 ≤ a'
      · have e : a' - a = (a' - (a + 1)) + 1 := by omega
        have h2 : a ≤ a' := by omega
        simp only [h1, h2, true_and, e, List.length_cons, Nat.add_lt_add_iff_right, List.getElem_cons_succ, if_neg h0]
      · have h2 : ¬ a ≤ a' := by omega
        simp [h1, h2, h0]

/-- A write of several bytes read back at its `k`-th byte. -/
theorem Memory.read_writeAll_at {m : Memory} (hw : Memory.wf m = true) {a : Nat} {bs : List Byte}
    (ha : a + bs.length ≤ Config.memSize) {k : Nat} (hk : k < bs.length) :
    Memory.read (Memory.writeAll m a bs) (a + k) = bs[k] := by
  rw [Memory.read_writeAll hw a bs ha, dif_pos ⟨Nat.le_add_right a k, by omega⟩]
  simp only [Nat.add_sub_cancel_left]

/-- A write of several bytes leaves every byte outside it. -/
theorem Memory.read_writeAll_outside {m : Memory} (hw : Memory.wf m = true) {a : Nat} {bs : List Byte}
    (ha : a + bs.length ≤ Config.memSize) {a' : Nat} (h : a' < a ∨ a + bs.length ≤ a') :
    Memory.read (Memory.writeAll m a bs) a' = Memory.read m a' := by
  rw [Memory.read_writeAll hw a bs ha, dif_neg (by omega)]

end Sys2Proof.Machine
end

