-- ==== Sys2Proof/Laws/Ops.lean ====
section
/-! SUPPORT. One spec lemma for each shared operation: everything it can do, once. Later proofs cite these and do not
unfold the operation. -/

namespace Sys2Proof.Machine

/-! ### Ending an instruction -/

/-- An instruction that raises no fault ends with its body's state. -/
theorem complete_eq (body : State → State) (s : State) : complete body s = .next (body s.advancePc) := rfl

/-- An instruction whose body ends well answers the body's state. -/
theorem attempt_ok {i : Instr} {body : State → Except Fault State} {s t : State} (h : body s.advancePc = .ok t) :
    attempt i body s = .next t := by simp [attempt, h]

/-- An instruction whose body raises a fault takes it on the state at the start of the step. -/
theorem attempt_error {i : Instr} {body : State → Except Fault State} {s : State} {f : Fault}
    (h : body s.advancePc = .error f) : attempt i body s = .next (takeFault f (some (encode i)) s) := by
  simp [attempt, h]

/-- What an instruction that may fault can do: end with its body's state, or take the fault its body raised. -/
theorem attempt_cases {i : Instr} {body : State → Except Fault State} {s t : State} (h : attempt i body s = .next t) :
    body s.advancePc = .ok t ∨ ∃ f, body s.advancePc = .error f ∧ t = takeFault f (some (encode i)) s := by
  unfold attempt at h
  split at h
  · rename_i t' e; cases h; exact .inl e
  · rename_i f e; cases h; exact .inr ⟨f, e, rfl⟩

/-- Whatever its body does, the instruction answers a next state. -/
theorem attempt_next (i : Instr) (body : State → Except Fault State) (s : State) :
    ∃ t, attempt i body s = .next t := by
  cases h : body s.advancePc with
  | ok t => exact ⟨t, attempt_ok h⟩
  | error f => exact ⟨_, attempt_error h⟩

/-! ### Single accesses -/

theorem memRead_ok {a : Nat} (h : a < 0x1000) (s : State) : memRead a s = .ok (s.byte a) :=
  if_pos (show a + 1 ≤ 0x1000 by omega)

theorem memRead_error {a : Nat} (h : 0x1000 ≤ a) (s : State) : memRead a s = .error (.memoryOutOfRange a) :=
  if_neg (show ¬ a + 1 ≤ 0x1000 by omega)

theorem memWrite_ok {a : Nat} (h : a < 0x1000) (b : Byte) (s : State) :
    memWrite a b s = .ok { s with mem := Memory.write s.mem a b } :=
  if_pos (show a + 1 ≤ 0x1000 by omega)

theorem memWrite_error {a : Nat} (h : 0x1000 ≤ a) (b : Byte) (s : State) :
    memWrite a b s = .error (.memoryOutOfRange a) :=
  if_neg (show ¬ a + 1 ≤ 0x1000 by omega)

theorem memRead2_ok {a : Nat} (h : a + 2 ≤ 0x1000) (s : State) : memRead2 a s = .ok (s.word a) :=
  if_pos (show a + 2 ≤ 0x1000 by omega)

theorem memWrite2_ok {a : Nat} (h : a + 2 ≤ 0x1000) (w : Word) (s : State) :
    memWrite2 a w s =
      .ok { s with mem := Memory.writeAll s.mem a [w.extractLsb' 8 8, w.extractLsb' 0 8] } :=
  if_pos (show a + 2 ≤ 0x1000 by omega)

/-! ### Consecutive accesses -/

/-- Bytes that all lie in memory are stored, and nothing but memory changes. -/
theorem storeBytes_ok (bs : List Byte) (a : Nat) (s : State) (h : a + bs.length ≤ 0x1000) :
    storeBytes a bs s = .ok { s with mem := Memory.writeAll s.mem a bs } := by
  induction bs generalizing a s with
  | nil => rfl
  | cons b bs ih =>
    rw [List.length_cons] at h
    simp only [storeBytes, memWrite_ok (show a < 0x1000 by omega)]
    exact ih (a + 1) _ (by omega)

/-- Bytes that leave memory fault at the first address outside it. -/
theorem storeBytes_error (bs : List Byte) (a : Nat) (s : State) (h : 0x1000 < a + bs.length) (ha : a ≤ 0x1000) :
    storeBytes a bs s = .error (.memoryOutOfRange 0x1000) := by
  induction bs generalizing a s with
  | nil => simp at h; omega
  | cons b bs ih =>
    rw [List.length_cons] at h
    by_cases e : a = 0x1000
    · subst e; simp only [storeBytes, memWrite_error (Nat.le_refl 0x1000)]
    · simp only [storeBytes, memWrite_ok (show a < 0x1000 by omega)]
      exact ih (a + 1) _ (by omega) (by omega)

/-- Bytes that all lie in memory are loaded in order. -/
theorem loadBytes_ok (n a : Nat) (s : State) (h : a + n ≤ 0x1000) :
    loadBytes a n s = .ok ((List.range n).map fun k => s.byte (a + k)) := by
  induction n generalizing a with
  | zero => rfl
  | succ n ih =>
    simp only [loadBytes, memRead_ok (show a < 0x1000 by omega), ih (a + 1) (by omega), List.range_succ_eq_map,
      List.map_cons, List.map_map, Nat.add_zero]
    congr 2
    apply List.map_congr_left
    intro k _
    simp only [Function.comp, Nat.succ_eq_add_one]
    congr 1
    omega

/-- A load that leaves memory faults at the first address outside it. -/
theorem loadBytes_error (n a : Nat) (s : State) (h : 0x1000 < a + n) (ha : a ≤ 0x1000) :
    loadBytes a n s = .error (.memoryOutOfRange 0x1000) := by
  induction n generalizing a with
  | zero => omega
  | succ n ih =>
    by_cases e : a = 0x1000
    · subst e; simp only [loadBytes, memRead_error (Nat.le_refl 0x1000)]
    · simp only [loadBytes, memRead_ok (show a < 0x1000 by omega), ih (a + 1) (by omega) (by omega)]

/-! ### Fetch and step -/

theorem fetchable_iff (s : State) :
    s.fetchable = true ↔ 0x200 ≤ s.pc.toNat ∧ s.pc.toNat + 2 ≤ 0xEA0 := by
  simp only [State.fetchable, Bool.and_eq_true, decide_eq_true_eq]

/-- A fetch in program space reads the word at `PC`. -/
theorem fetch_ok {s : State} (h : s.fetchable = true) : fetch s = .ok (s.word s.pc.toNat) := by
  have := (fetchable_iff s).1 h
  simp only [fetch, h, if_true]
  exact memRead2_ok (by omega) s

/-- A fetch outside program space faults. -/
theorem fetch_error {s : State} (h : s.fetchable = false) : fetch s = .error (.fetchOutOfRange s.pc) := by
  simp [fetch, h]

section StepBy
variable {run : Instr → State → Host.Outcome State Fault Refusal} {s t : State}

theorem stepBy_halted (h : s.halted = true) : stepBy run s = .next s := by simp [stepBy, h]

theorem stepBy_fetch_fault (hh : s.halted = false) (h : s.fetchable = false) :
    stepBy run s = .next (takeFault (.fetchOutOfRange s.pc) none s) := by
  simp [stepBy, hh, fetch_error h]

theorem stepBy_unknown (hh : s.halted = false) (h : s.fetchable = true) {e : DecodeError}
    (hd : decode (s.word s.pc.toNat) = .error e) :
    stepBy run s = .next (takeFault (.unknownOpcode (s.word s.pc.toNat)) (some (s.word s.pc.toNat)) s) := by
  simp [stepBy, hh, fetch_ok h, hd]

theorem stepBy_run (hh : s.halted = false) (h : s.fetchable = true) {i : Instr}
    (hd : decode (s.word s.pc.toNat) = .ok i) : stepBy run s = run i s := by
  simp [stepBy, hh, fetch_ok h, hd]

/-- Everything a step can do, over any meanings of the instructions. -/
theorem stepBy_cases (h : stepBy run s = .next t) :
    (s.halted = true ∧ t = s) ∨
    (s.halted = false ∧ s.fetchable = false ∧ t = takeFault (.fetchOutOfRange s.pc) none s) ∨
    (s.halted = false ∧ s.fetchable = true ∧ (∃ e, decode (s.word s.pc.toNat) = .error e) ∧
      t = takeFault (.unknownOpcode (s.word s.pc.toNat)) (some (s.word s.pc.toNat)) s) ∨
    (s.halted = false ∧ s.fetchable = true ∧ ∃ i, decode (s.word s.pc.toNat) = .ok i ∧ run i s = .next t) := by
  cases hh : s.halted with
  | true => rw [stepBy_halted hh] at h; cases h; exact .inl ⟨rfl, rfl⟩
  | false =>
    cases hf : s.fetchable with
    | false => rw [stepBy_fetch_fault hh hf] at h; cases h; exact .inr (.inl ⟨rfl, rfl, rfl⟩)
    | true =>
      cases hd : decode (s.word s.pc.toNat) with
      | error e => rw [stepBy_unknown hh hf hd] at h; cases h; exact .inr (.inr (.inl ⟨rfl, rfl, ⟨e, rfl⟩, rfl⟩))
      | ok i => rw [stepBy_run hh hf hd] at h; exact .inr (.inr (.inr ⟨rfl, rfl, i, rfl, h⟩))

theorem step_halted (h : s.halted = true) : step s = .next s := stepBy_halted h

theorem step_fetch_fault (hh : s.halted = false) (h : s.fetchable = false) :
    step s = .next (takeFault (.fetchOutOfRange s.pc) none s) := stepBy_fetch_fault hh h

theorem step_unknown (hh : s.halted = false) (h : s.fetchable = true) {e : DecodeError}
    (hd : decode (s.word s.pc.toNat) = .error e) :
    step s = .next (takeFault (.unknownOpcode (s.word s.pc.toNat)) (some (s.word s.pc.toNat)) s) :=
  stepBy_unknown hh h hd

theorem step_exec (hh : s.halted = false) (h : s.fetchable = true) {i : Instr}
    (hd : decode (s.word s.pc.toNat) = .ok i) : step s = exec i s := stepBy_run hh h hd

/-- Everything a step can do. -/
theorem step_cases (h : step s = .next t) :
    (s.halted = true ∧ t = s) ∨
    (s.halted = false ∧ s.fetchable = false ∧ t = takeFault (.fetchOutOfRange s.pc) none s) ∨
    (s.halted = false ∧ s.fetchable = true ∧ (∃ e, decode (s.word s.pc.toNat) = .error e) ∧
      t = takeFault (.unknownOpcode (s.word s.pc.toNat)) (some (s.word s.pc.toNat)) s) ∨
    (s.halted = false ∧ s.fetchable = true ∧ ∃ i, decode (s.word s.pc.toNat) = .ok i ∧ exec i s = .next t) :=
  stepBy_cases h

end StepBy

/-! ### Operands -/

theorem keyOperand_ok {x : RegIdx} {s : State} (h : (s.getV x).toNat ≤ 15) :
    keyOperand x s = .ok (s.getV x).toNat := by
  simp only [keyOperand]; rw [if_neg (by omega)]

theorem keyOperand_error {x : RegIdx} {s : State} (h : 15 < (s.getV x).toNat) :
    keyOperand x s = .error (.keyIndexOutOfRange (s.getV x)) := by
  simp only [keyOperand]; rw [if_pos (by omega)]

theorem glyphOperand_ok {base : Nat} {x : RegIdx} {s : State} (h : (s.getV x).toNat ≤ 15) :
    glyphOperand base x s = .ok (BitVec.ofNat 12 (base + Config.glyphBytes * (s.getV x).toNat)) := by
  simp only [glyphOperand]; rw [if_neg (by omega)]

theorem glyphOperand_error {base : Nat} {x : RegIdx} {s : State} (h : 15 < (s.getV x).toNat) :
    glyphOperand base x s = .error (.fontIndexOutOfRange (s.getV x)) := by
  simp only [glyphOperand]; rw [if_pos (by omega)]

/-- A key number below 16 is a keypad bit. -/
theorem keyAt_of_lt (s : State) {k : Nat} (h : k < 16) : s.keyAt k = s.keys[k] := by simp [State.keyAt, h]

/-- `lowestPressed` finds the lowest pressed key. -/
theorem lowestPressed_some {s : State} {k : RegIdx} (hk : s.keys[k.val] = true)
    (hlow : ∀ j : RegIdx, j < k → s.keys[j.val] = false) : lowestPressed s = some k := by
  obtain ⟨j, hj⟩ : ∃ j, lowestPressed s = some j := by
    rw [← Option.isSome_iff_exists, lowestPressed, List.find?_isSome]
    exact ⟨k, List.mem_finRange k, hk⟩
  rw [hj, Option.some_inj]
  obtain ⟨hjp, as, bs, hab, has⟩ := List.find?_eq_some_iff_append.1 hj
  rcases lt_trichotomy j k with h | h | h
  · rw [hlow j h] at hjp; exact absurd hjp (by decide)
  · exact h
  · exfalso
    have hmem : k ∈ as ++ j :: bs := hab ▸ List.mem_finRange k
    have hsorted : (as ++ j :: bs).Pairwise (· < ·) := hab ▸ List.pairwise_lt_finRange 16
    rcases List.mem_append.1 hmem with h' | h'
    · have := has k h'; simp [hk] at this
    · rw [List.pairwise_append] at hsorted
      rcases List.mem_cons.1 h' with h'' | h''
      · exact absurd h'' (ne_of_lt h)
      · exact absurd ((List.pairwise_cons.1 hsorted.2.1).1 k h'') (not_lt.2 h.le)

theorem lowestPressed_none {s : State} (h : ∀ k : RegIdx, s.keys[k.val] = false) : lowestPressed s = none := by
  rw [lowestPressed, List.find?_eq_none]
  intro k _
  simp [h k]

/-- A key that `lowestPressed` finds is pressed. -/
theorem lowestPressed_spec {s : State} {k : RegIdx} (h : lowestPressed s = some k) : s.keys[k.val] = true := by
  simpa using List.find?_some h

/-! ### Flags -/

theorem flagByte_toNat (c : Bool) : (flagByte c).toNat = if c = true then 1 else 0 := by cases c <;> rfl

theorem flagByte_zero_or_one (c : Bool) : flagByte c = 0 ∨ flagByte c = 1 := by cases c <;> simp [flagByte]

end Sys2Proof.Machine
end

