-- ==== Sys2Proof/Laws/Display.lean ====
section
/-! SUPPORT. One spec lemma for each operation of the sprite blit (44_display.md R191 to R194): what it writes, when it
faults, and with which address. -/

namespace Sys2Proof.Machine

/-! ### One blit -/

theorem blit_ok {a : Nat} (h : a < 0x1000) (p : Byte) (d : Drawing) :
    blit a p d = .ok ⟨{ d.st with mem := Memory.write d.st.mem a (d.st.byte a ^^^ p) },
      d.coll || collides (d.st.byte a) p⟩ := by
  simp only [blit, memRead_ok h, memWrite_ok h]

theorem blit_error {a : Nat} (h : 0x1000 ≤ a) (p : Byte) (d : Drawing) :
    blit a p d = .error (.memoryOutOfRange a) := by
  simp only [blit, memRead_error h]

/-! ### One row -/

/-- What a sprite row XORs into the byte at `a`: the low-order bits of the reversed row, shifted up, into its first
byte, the rest into the next (R193); nothing anywhere else. With no bit offset the second pattern is 0. -/
def rowPattern (a0 sh : Nat) (b : Byte) (a : Nat) : Byte :=
  if a = a0 then rev8 b <<< sh else if a = a0 + 1 then rev8 b >>> (8 - sh) else 0

/-- The addresses a row writes all exist. -/
def rowInRange (a0 sh : Nat) : Prop := a0 < 0x1000 ∧ (sh = 0 ∨ a0 + 1 < 0x1000)

/-- A row whose bytes exist XORs its pattern into every byte of memory and records a collision exactly when a pattern
meets a set bit. -/
theorem blitRow_ok {a0 sh : Nat} (hr : rowInRange a0 sh) (b : Byte) (d : Drawing)
    (hw : Memory.wf d.st.mem = true) :
    ∃ (m : Memory) (c : Bool), blitRow a0 sh b d = .ok ⟨{ d.st with mem := m }, d.coll || c⟩ ∧
      Memory.wf m = true ∧ (∀ a, Memory.read m a = d.st.byte a ^^^ rowPattern a0 sh b a) ∧
      (c = true ↔ ∃ a, (d.st.byte a &&& rowPattern a0 sh b a) ≠ 0) := by
  obtain ⟨h0, h1⟩ := hr
  have hc : ∀ old p : Byte, collides old p = true ↔ (old &&& p) ≠ 0 := fun old p => bne_iff_ne
  by_cases hs : sh = 0
  · subst hs
    refine ⟨_, collides (d.st.byte a0) (rev8 b), by rw [blitRow, if_pos rfl, blit_ok h0], Memory.wf_write hw h0 _, ?_, ?_⟩
    · intro a
      rw [Memory.wf_read_write hw, rowPattern, BitVec.shiftLeft_zero]
      by_cases e : a = a0
      · rw [if_pos e, if_pos e, e]
      · rw [if_neg e, if_neg e]
        have : rev8 b >>> (8 - 0) = 0 := BitVec.ushiftRight_eq_zero (Nat.le_refl 8)
        rw [this]; simp [State.byte]
    · rw [hc]
      constructor
      · intro h; exact ⟨a0, by rw [rowPattern, if_pos rfl, BitVec.shiftLeft_zero]; exact h⟩
      · rintro ⟨a, ha⟩
        have z : rev8 b >>> (8 - 0) = 0 := BitVec.ushiftRight_eq_zero (Nat.le_refl 8)
        by_cases e : a = a0
        · subst e; rwa [rowPattern, if_pos rfl, BitVec.shiftLeft_zero] at ha
        · exfalso; apply ha; rw [rowPattern, if_neg e, z, ite_self]; simp
  · have h1 := h1.resolve_left hs
    have e1 : ∀ v, (({ d.st with mem := Memory.write d.st.mem a0 v } : State)).byte (a0 + 1) = d.st.byte (a0 + 1) :=
      fun v => by simp only [State.byte, Memory.wf_read_write hw]; rw [if_neg (by omega)]
    refine ⟨Memory.write (Memory.write d.st.mem a0 (d.st.byte a0 ^^^ rev8 b <<< sh)) (a0 + 1)
        (d.st.byte (a0 + 1) ^^^ rev8 b >>> (8 - sh)), collides (d.st.byte a0) (rev8 b <<< sh) || collides (d.st.byte (a0 + 1)) (rev8 b >>> (8 - sh)),
      by rw [blitRow, if_neg hs, blit_ok h0]; simp only [blit_ok h1, e1, Bool.or_assoc],
      Memory.wf_write (Memory.wf_write hw h0 _) h1 _, ?_, ?_⟩
    · intro a
      rw [Memory.wf_read_write (Memory.wf_write hw h0 _), Memory.wf_read_write hw, rowPattern]
      by_cases e : a = a0
      · subst e; rw [if_neg (by omega), if_pos rfl, if_pos rfl]
      · by_cases e' : a = a0 + 1
        · subst e'; simp
        · simp [e, e', State.byte]
    · rw [Bool.or_eq_true, hc, hc]
      constructor
      · rintro (h | h)
        · exact ⟨a0, by rw [rowPattern, if_pos rfl]; exact h⟩
        · exact ⟨a0 + 1, by rw [rowPattern, if_neg (by omega), if_pos rfl]; exact h⟩
      · rintro ⟨a, ha⟩
        by_cases e : a = a0
        · subst e; rw [rowPattern, if_pos rfl] at ha; exact .inl ha
        · by_cases e' : a = a0 + 1
          · subst e'; rw [rowPattern, if_neg e, if_pos rfl] at ha; exact .inr ha
          · exfalso; apply ha; rw [rowPattern, if_neg e, if_neg e']; simp

/-- A row with a byte that does not exist faults at the first such byte. -/
theorem blitRow_error {a0 sh : Nat} (hr : ¬ rowInRange a0 sh) (b : Byte) (d : Drawing) :
    ∃ a, 0x1000 ≤ a ∧ (a = a0 ∨ (sh ≠ 0 ∧ a = a0 + 1)) ∧ blitRow a0 sh b d = .error (.memoryOutOfRange a) := by
  by_cases hs : sh = 0
  · have h : 0x1000 ≤ a0 := by simp only [rowInRange, hs, true_or, and_true] at hr; omega
    exact ⟨a0, h, .inl rfl, by rw [blitRow, if_pos hs, blit_error h]⟩
  · by_cases h0 : a0 < 0x1000
    · have h1 : 0x1000 ≤ a0 + 1 := by simp only [rowInRange, hs, h0, false_or, true_and] at hr; omega
      exact ⟨a0 + 1, h1, .inr ⟨hs, rfl⟩, by rw [blitRow, if_neg hs, blit_ok h0]; simp only [blit_error h1]⟩
    · exact ⟨a0, by omega, .inl rfl, by rw [blitRow, if_neg hs, blit_error (by omega)]⟩

/-- Every access of row `k` is to an address that exists. -/
def drawRowInRange (i : Addr12) (cx cy : Byte) (k : Nat) : Prop :=
  i.toNat + k < 0x1000 ∧ rowInRange (spriteAddr cx cy k) (cx.toNat % 8)

/-- A row in range: its sprite byte as memory holds it now, XORed into the framebuffer. -/
theorem drawRow_ok {cx cy : Byte} {k : Nat} {d : Drawing} (hr : drawRowInRange d.st.i cx cy k)
    (hw : Memory.wf d.st.mem = true) :
    ∃ (m : Memory) (c : Bool), drawRow cx cy k d = .ok ⟨{ d.st with mem := m }, d.coll || c⟩ ∧ Memory.wf m = true ∧
      (∀ a, Memory.read m a = d.st.byte a ^^^
        rowPattern (spriteAddr cx cy k) (cx.toNat % 8) (d.st.byte (d.st.i.toNat + k)) a) ∧
      (c = true ↔ ∃ a, (d.st.byte a &&&
        rowPattern (spriteAddr cx cy k) (cx.toNat % 8) (d.st.byte (d.st.i.toNat + k)) a) ≠ 0) := by
  obtain ⟨m, c, h⟩ := blitRow_ok hr.2 (d.st.byte (d.st.i.toNat + k)) d hw
  refine ⟨m, c, ?_, h.2⟩
  simp only [drawRow, State.indexAddr, memRead_ok hr.1, h.1]

/-- A row out of range faults at an address it accesses. -/
theorem drawRow_error {cx cy : Byte} {k : Nat} {d : Drawing} (hr : ¬ drawRowInRange d.st.i cx cy k) :
    ∃ a, 0x1000 ≤ a ∧ (a = d.st.i.toNat + k ∨ a = spriteAddr cx cy k ∨
      (cx.toNat % 8 ≠ 0 ∧ a = spriteAddr cx cy k + 1)) ∧ drawRow cx cy k d = .error (.memoryOutOfRange a) := by
  by_cases h : d.st.i.toNat + k < 0x1000
  · have hr' : ¬ rowInRange (spriteAddr cx cy k) (cx.toNat % 8) := fun h' => hr ⟨h, h'⟩
    obtain ⟨a, ha, hb, hc⟩ := blitRow_error hr' (d.st.byte (d.st.i.toNat + k)) d
    refine ⟨a, ha, .inr hb, ?_⟩
    simp only [drawRow, State.indexAddr, memRead_ok h, hc]
  · refine ⟨d.st.i.toNat + k, by omega, .inl rfl, ?_⟩
    simp only [drawRow, State.indexAddr, memRead_error (show 0x1000 ≤ d.st.i.toNat + k by omega)]

/-! ### All rows -/

/-- Whatever memory holds, a draw changes memory alone, and the collision is never forgotten. -/
theorem drawRows_frame (cx cy : Byte) (n k : Nat) (d d' : Drawing) (h : drawRows cx cy k n d = .ok d') :
    d'.st = { d.st with mem := d'.st.mem } := by
  have hblit : ∀ a p (e e' : Drawing), blit a p e = .ok e' → e'.st = { e.st with mem := e'.st.mem } := by
    intro a p e e' he
    by_cases ha : a < 0x1000
    · rw [blit_ok ha] at he; cases he; rfl
    · rw [blit_error (by omega)] at he; cases he
  have hrow : ∀ j (e e' : Drawing), drawRow cx cy j e = .ok e' → e'.st = { e.st with mem := e'.st.mem } := by
    intro j e e' he
    unfold drawRow at he
    split at he
    · unfold blitRow at he
      split at he
      · exact hblit _ _ _ _ he
      · split at he
        · rename_i e1 h1
          rw [hblit _ _ _ _ he, hblit _ _ _ _ h1]
        · cases he
    · cases he
  induction n generalizing k d with
  | zero => cases h; rfl
  | succ n ih =>
    unfold drawRows at h
    split at h
    · rename_i d1 h1
      rw [ih _ _ h, hrow _ _ _ h1]
    · cases h

/-- Rows in range are drawn: only memory changes, only in the bytes the rows write, and it stays canonical. -/
theorem drawRows_ok (cx cy : Byte) (n k : Nat) (d : Drawing)
    (hr : ∀ j, k ≤ j → j < k + n → drawRowInRange d.st.i cx cy j) (hw : Memory.wf d.st.mem = true) :
    ∃ (m : Memory) (c : Bool), drawRows cx cy k n d = .ok ⟨{ d.st with mem := m }, c⟩ ∧ Memory.wf m = true ∧
      ∀ a, (∀ j, k ≤ j → j < k + n → a ≠ spriteAddr cx cy j ∧ (cx.toNat % 8 = 0 ∨ a ≠ spriteAddr cx cy j + 1)) →
        Memory.read m a = d.st.byte a := by
  induction n generalizing k d with
  | zero => exact ⟨d.st.mem, d.coll, rfl, hw, fun a _ => rfl⟩
  | succ n ih =>
    obtain ⟨m, c, h, hwm, hread, -⟩ := drawRow_ok (hr k (Nat.le_refl k) (by omega)) hw
    obtain ⟨m', c', h', hwm', hread'⟩ :=
      ih (k + 1) ⟨{ d.st with mem := m }, d.coll || c⟩ (fun j h1 h2 => hr j (by omega) (by omega)) hwm
    refine ⟨m', c', by simp only [drawRows, h, h'], hwm', fun a ha => ?_⟩
    rw [hread' a fun j h1 h2 => ha j (by omega) (by omega)]
    have hk := ha k (Nat.le_refl k) (by omega)
    have z : rowPattern (spriteAddr cx cy k) (cx.toNat % 8) (d.st.byte (d.st.i.toNat + k)) a = 0 := by
      rw [rowPattern, if_neg hk.1]
      split
      · rename_i e
        rw [hk.2.resolve_right (fun hne => hne e)]
        exact BitVec.ushiftRight_eq_zero (Nat.le_refl 8)
      · rfl
    exact (hread a).trans (by rw [z]; simp)

/-- A row in range is drawn whatever memory holds, and `I` stays. -/
theorem drawRow_total {cx cy : Byte} {k : Nat} {d : Drawing} (hr : drawRowInRange d.st.i cx cy k) :
    ∃ d', drawRow cx cy k d = .ok d' ∧ d'.st.i = d.st.i := by
  obtain ⟨h, h0, h1⟩ := hr
  simp only [drawRow, State.indexAddr, memRead_ok h, blitRow, blit_ok h0]
  split
  · exact ⟨_, rfl, rfl⟩
  · rename_i hs
    simp only [blit_ok (h1.resolve_left hs)]
    exact ⟨_, rfl, rfl⟩

/-- Rows not all in range fault, at an address that one of them accesses. -/
theorem drawRows_error (cx cy : Byte) (n k : Nat) (d : Drawing)
    (hr : ¬ ∀ j, k ≤ j → j < k + n → drawRowInRange d.st.i cx cy j) :
    ∃ a j, k ≤ j ∧ j < k + n ∧ 0x1000 ≤ a ∧ (a = d.st.i.toNat + j ∨ a = spriteAddr cx cy j ∨
      (cx.toNat % 8 ≠ 0 ∧ a = spriteAddr cx cy j + 1)) ∧ drawRows cx cy k n d = .error (.memoryOutOfRange a) := by
  induction n generalizing k d with
  | zero => exact absurd (fun j h1 h2 => by omega) hr
  | succ n ih =>
    by_cases hk : drawRowInRange d.st.i cx cy k
    · obtain ⟨d1, h, hi⟩ := drawRow_total hk
      have hr' : ¬ ∀ j, k + 1 ≤ j → j < k + 1 + n → drawRowInRange d1.st.i cx cy j := by
        intro hall
        apply hr
        intro j h1 h2
        rcases Nat.lt_or_eq_of_le h1 with h3 | h3
        · exact hi ▸ hall j h3 (by omega)
        · exact h3 ▸ hk
      obtain ⟨a, j, h1, h2, ha, hb, hc⟩ := ih (k + 1) d1 hr'
      exact ⟨a, j, by omega, by omega, ha, by rwa [hi] at hb, by simp only [drawRows, h, hc]⟩
    · obtain ⟨a, ha, hb, hc⟩ := drawRow_error hk
      exact ⟨a, k, Nat.le_refl k, by omega, ha, hb, by simp only [drawRows, hc]⟩

/-! ### The first address out of range -/

/-- The accesses of row `k` in the order of the pseudocode. -/
def rowAccesses (i : Addr12) (cx cy : Byte) (k : Nat) : List Nat :=
  (i.toNat + k) :: spriteAddr cx cy k :: (if cx.toNat % 8 = 0 then [] else [spriteAddr cx cy k + 1])

/-- The accesses of a whole draw are those of its rows. -/
theorem drawAccesses_eq (s : State) (cx cy : Byte) (n : Nat) :
    s.drawAccesses cx cy n = (List.range' 0 n).flatMap (rowAccesses s.i cx cy) := by
  rw [State.drawAccesses, List.range_eq_range']; rfl

/-- A row faults exactly with the first of its accesses that is out of range. -/
theorem drawRow_first (cx cy : Byte) (k : Nat) (d : Drawing) :
    match (rowAccesses d.st.i cx cy k).find? (fun a => decide (0x1000 ≤ a)) with
    | some a => drawRow cx cy k d = .error (.memoryOutOfRange a)
    | none => ∃ d', drawRow cx cy k d = .ok d' ∧ d'.st.i = d.st.i := by
  have h : ∀ a : Nat, decide (0x1000 ≤ a) = false ↔ a < 0x1000 := fun a => by simp
  rw [rowAccesses]
  by_cases h0 : d.st.i.toNat + k < 0x1000
  · rw [List.find?_cons_of_neg (by simpa using h0)]
    by_cases h1 : spriteAddr cx cy k < 0x1000
    · rw [List.find?_cons_of_neg (by simpa using h1)]
      by_cases hs : cx.toNat % 8 = 0
      · rw [if_pos hs]
        exact drawRow_total ⟨h0, h1, .inl hs⟩
      · rw [if_neg hs]
        by_cases h2 : spriteAddr cx cy k + 1 < 0x1000
        · rw [List.find?_cons_of_neg (by rw [decide_eq_true_eq]; omega)]
          exact drawRow_total ⟨h0, h1, .inr h2⟩
        · rw [List.find?_cons_of_pos (by rw [decide_eq_true_eq]; omega)]
          simp only [drawRow, State.indexAddr, memRead_ok h0, blitRow, if_neg hs, blit_ok h1,
            blit_error (show 0x1000 ≤ spriteAddr cx cy k + 1 by omega)]
    · rw [List.find?_cons_of_pos (by simpa using h1)]
      have e := fun p => blit_error (show 0x1000 ≤ spriteAddr cx cy k by omega) p d
      simp only [drawRow, State.indexAddr, memRead_ok h0, blitRow, e]
      split <;> rfl
  · rw [List.find?_cons_of_pos (by simpa using h0)]
    simp only [drawRow, State.indexAddr, memRead_error (show 0x1000 ≤ d.st.i.toNat + k by omega)]

/-- A draw faults exactly with the first of its accesses that is out of range. -/
theorem drawRows_first (cx cy : Byte) (n k : Nat) (d : Drawing) :
    match ((List.range' k n).flatMap (rowAccesses d.st.i cx cy)).find? (fun a => decide (0x1000 ≤ a)) with
    | some a => drawRows cx cy k n d = .error (.memoryOutOfRange a)
    | none => ∃ d', drawRows cx cy k n d = .ok d' ∧ d'.st.i = d.st.i := by
  induction n generalizing k d with
  | zero => exact ⟨d, rfl, rfl⟩
  | succ n ih =>
    have hr := drawRow_first cx cy k d
    rw [List.range'_succ, List.flatMap_cons, List.find?_append]
    cases hf : (rowAccesses d.st.i cx cy k).find? (fun a => decide (0x1000 ≤ a)) with
    | some a =>
      simp only [hf] at hr
      simp only [Option.some_or, drawRows, hr]
    | none =>
      simp only [hf] at hr
      obtain ⟨d1, h1, hi⟩ := hr
      have := ih (k + 1) d1
      simp only [Option.none_or, drawRows, h1]
      rwa [hi] at this

end Sys2Proof.Machine
end

