-- ==== Sys2Proof/Laws/Encoding.lean ====
section
/-! SUPPORT. The fields of a packed word, and packed words as the numbers the spec writes (30_encoding.md R84). -/

namespace Sys2Proof

/-! ### A concatenation as a number -/

/-- High bits above low bits, as numbers. -/
theorem toNat_append_add {m n : Nat} (a : BitVec m) (b : BitVec n) :
    (a ++ b).toNat = a.toNat * 2 ^ n + b.toNat := by
  rw [BitVec.toNat_append, ← Nat.shiftLeft_add_eq_or_of_lt b.isLt, Nat.shiftLeft_eq]

theorem packNNN_toNat (g : Nibble) (nnn : Addr12) : (packNNN g nnn).toNat = 4096 * g.toNat + nnn.toNat := by
  rw [packNNN, toNat_append_add]; omega

theorem packSel_toNat (g h : Nibble) (sel : Byte) :
    (packSel g h sel).toNat = 4096 * g.toNat + 256 * h.toNat + sel.toNat := by
  rw [packSel, toNat_append_add, toNat_append_add]; omega

theorem packXNN_toNat (g : Nibble) (x : RegIdx) (nn : Byte) :
    (packXNN g x nn).toNat = 4096 * g.toNat + 256 * x.val + nn.toNat := by
  have e : (BitVec.ofFin (w := 4) x).toNat = x.val := rfl
  rw [packXNN, toNat_append_add, toNat_append_add]; omega

theorem packXMN_toNat (g : Nibble) (x : RegIdx) (mid n : Nibble) :
    (packXMN g x mid n).toNat = 4096 * g.toNat + 256 * x.val + 16 * mid.toNat + n.toNat := by
  have e : (BitVec.ofFin (w := 4) x).toNat = x.val := rfl
  rw [packXMN, toNat_append_add, toNat_append_add, toNat_append_add]; omega

/-! ### The fields of a word as numbers -/

theorem opGroup_toNat (w : Word) : (opGroup w).toNat = w.toNat / 4096 := by
  have := w.isLt
  simp only [opGroup, BitVec.extractLsb'_toNat, Nat.shiftRight_eq_div_pow]; omega

theorem opHi_toNat (w : Word) : (opHi w).toNat = w.toNat / 256 % 16 := by
  simp [opHi, Nat.shiftRight_eq_div_pow]

theorem opMid_toNat (w : Word) : (opMid w).toNat = w.toNat / 16 % 16 := by
  simp [opMid, Nat.shiftRight_eq_div_pow]

theorem opN_toNat (w : Word) : (opN w).toNat = w.toNat % 16 := by
  simp [opN, Nat.shiftRight_eq_div_pow]

theorem opNN_toNat (w : Word) : (opNN w).toNat = w.toNat % 256 := by
  simp [opNN, Nat.shiftRight_eq_div_pow]

theorem opNNN_toNat (w : Word) : (opNNN w).toNat = w.toNat % 4096 := by
  simp [opNNN, Nat.shiftRight_eq_div_pow]

theorem opX_val (w : Word) : (opX w).val = w.toNat / 256 % 16 := opHi_toNat w

theorem opY_val (w : Word) : (opY w).val = w.toNat / 16 % 16 := opMid_toNat w

/-! ### Every field of a packed word is the one packed -/

@[simp] theorem opGroup_packNNN (g : Nibble) (nnn : Addr12) : opGroup (packNNN g nnn) = g := by
  apply BitVec.eq_of_toNat_eq; rw [opGroup_toNat, packNNN_toNat]; omega

@[simp] theorem opNNN_packNNN (g : Nibble) (nnn : Addr12) : opNNN (packNNN g nnn) = nnn := by
  apply BitVec.eq_of_toNat_eq; rw [opNNN_toNat, packNNN_toNat]; omega

@[simp] theorem opGroup_packSel (g h : Nibble) (sel : Byte) : opGroup (packSel g h sel) = g := by
  apply BitVec.eq_of_toNat_eq; rw [opGroup_toNat, packSel_toNat]; omega

@[simp] theorem opHi_packSel (g h : Nibble) (sel : Byte) : opHi (packSel g h sel) = h := by
  apply BitVec.eq_of_toNat_eq; rw [opHi_toNat, packSel_toNat]; omega

@[simp] theorem opNN_packSel (g h : Nibble) (sel : Byte) : opNN (packSel g h sel) = sel := by
  apply BitVec.eq_of_toNat_eq; rw [opNN_toNat, packSel_toNat]; omega

@[simp] theorem opGroup_packXNN (g : Nibble) (x : RegIdx) (nn : Byte) : opGroup (packXNN g x nn) = g := by
  apply BitVec.eq_of_toNat_eq; rw [opGroup_toNat, packXNN_toNat]; omega

@[simp] theorem opX_packXNN (g : Nibble) (x : RegIdx) (nn : Byte) : opX (packXNN g x nn) = x := by
  apply Fin.ext; rw [opX_val, packXNN_toNat]; omega

@[simp] theorem opNN_packXNN (g : Nibble) (x : RegIdx) (nn : Byte) : opNN (packXNN g x nn) = nn := by
  apply BitVec.eq_of_toNat_eq; rw [opNN_toNat, packXNN_toNat]; omega

@[simp] theorem opGroup_packXMN (g : Nibble) (x : RegIdx) (mid n : Nibble) : opGroup (packXMN g x mid n) = g := by
  apply BitVec.eq_of_toNat_eq; rw [opGroup_toNat, packXMN_toNat]; omega

@[simp] theorem opX_packXMN (g : Nibble) (x : RegIdx) (mid n : Nibble) : opX (packXMN g x mid n) = x := by
  apply Fin.ext; rw [opX_val, packXMN_toNat]; omega

@[simp] theorem opMid_packXMN (g : Nibble) (x : RegIdx) (mid n : Nibble) : opMid (packXMN g x mid n) = mid := by
  apply BitVec.eq_of_toNat_eq; rw [opMid_toNat, packXMN_toNat]; omega

@[simp] theorem opN_packXMN (g : Nibble) (x : RegIdx) (mid n : Nibble) : opN (packXMN g x mid n) = n := by
  apply BitVec.eq_of_toNat_eq; rw [opN_toNat, packXMN_toNat]; omega

@[simp] theorem opGroup_packXYN (g : Nibble) (x y : RegIdx) (n : Nibble) : opGroup (packXYN g x y n) = g :=
  opGroup_packXMN g x _ n

@[simp] theorem opX_packXYN (g : Nibble) (x y : RegIdx) (n : Nibble) : opX (packXYN g x y n) = x :=
  opX_packXMN g x _ n

@[simp] theorem opY_packXYN (g : Nibble) (x y : RegIdx) (n : Nibble) : opY (packXYN g x y n) = y := by
  rw [packXYN, opY, opMid_packXMN]

@[simp] theorem opN_packXYN (g : Nibble) (x y : RegIdx) (n : Nibble) : opN (packXYN g x y n) = n :=
  opN_packXMN g x _ n

/-! ### Every word is the packing of its own fields -/

theorem packSel_fields (w : Word) : packSel (opGroup w) (opHi w) (opNN w) = w := by
  apply BitVec.eq_of_toNat_eq; rw [packSel_toNat, opGroup_toNat, opHi_toNat, opNN_toNat]; omega

theorem packNNN_fields (w : Word) : packNNN (opGroup w) (opNNN w) = w := by
  apply BitVec.eq_of_toNat_eq; rw [packNNN_toNat, opGroup_toNat, opNNN_toNat]; omega

theorem packXNN_fields (w : Word) : packXNN (opGroup w) (opX w) (opNN w) = w := by
  apply BitVec.eq_of_toNat_eq; rw [packXNN_toNat, opGroup_toNat, opX_val, opNN_toNat]; omega

theorem packXMN_fields (w : Word) : packXMN (opGroup w) (opX w) (opMid w) (opN w) = w := by
  apply BitVec.eq_of_toNat_eq; rw [packXMN_toNat, opGroup_toNat, opX_val, opMid_toNat, opN_toNat]; omega

theorem packXYN_fields (w : Word) : packXYN (opGroup w) (opX w) (opY w) (opN w) = w := packXMN_fields w

/-! ### The masks of the opcode table as fields -/

theorem getLsbD_pack (g : Nibble) (a : Addr12) (k : Nat) :
    (packNNN g a).getLsbD k = if k < 12 then a.getLsbD k else g.getLsbD (k - 12) :=
  BitVec.getLsbD_append (x := g) (y := a)

theorem and_groupMask (w : Word) : w &&& 0xF000 = packNNN (opGroup w) 0 := by
  apply BitVec.eq_of_getLsbD_eq
  intro k hk
  rw [getLsbD_pack]
  interval_cases k <;> simp [opGroup]

theorem and_selectorByteMask (w : Word) : w &&& 0xF0FF = packSel (opGroup w) 0 (opNN w) := by
  apply BitVec.eq_of_getLsbD_eq
  intro k hk
  have e : (packSel (opGroup w) 0 (opNN w)).getLsbD k = _ := getLsbD_pack _ _ k
  rw [e, BitVec.getLsbD_append (n := 4) (m := 8)]
  interval_cases k <;> simp [opGroup, opNN]

theorem and_selectorNibbleMask (w : Word) : w &&& 0xF00F = packXMN (opGroup w) 0 0 (opN w) := by
  apply BitVec.eq_of_getLsbD_eq
  intro k hk
  have e : (packXMN (opGroup w) 0 0 (opN w)).getLsbD k = _ := getLsbD_pack _ _ k
  rw [e, BitVec.getLsbD_append (n := 4) (m := 8), BitVec.getLsbD_append (n := 4) (m := 4)]
  interval_cases k <;> simp [opGroup, opN]

/-! ### The numbers the spec writes -/

namespace Machine

theorem wordNNN_eq (g : Nibble) (nnn : Addr12) : wordNNN g.toNat nnn.toNat = packNNN g nnn := by
  apply BitVec.eq_of_toNat_eq; rw [packNNN_toNat, wordNNN, BitVec.toNat_ofNat]; omega

theorem wordXNN_sel_eq (g h : Nibble) (sel : Byte) : wordXNN g.toNat h.toNat sel.toNat = packSel g h sel := by
  apply BitVec.eq_of_toNat_eq; rw [packSel_toNat, wordXNN, BitVec.toNat_ofNat]; omega

theorem wordXNN_eq (g : Nibble) (x : RegIdx) (nn : Byte) : wordXNN g.toNat x.val nn.toNat = packXNN g x nn := by
  apply BitVec.eq_of_toNat_eq; rw [packXNN_toNat, wordXNN, BitVec.toNat_ofNat]; omega

theorem wordXMN_eq (g : Nibble) (x : RegIdx) (mid n : Nibble) :
    wordXYN g.toNat x.val mid.toNat n.toNat = packXMN g x mid n := by
  apply BitVec.eq_of_toNat_eq; rw [packXMN_toNat, wordXYN, BitVec.toNat_ofNat]; omega

theorem wordXYN_eq (g : Nibble) (x y : RegIdx) (n : Nibble) :
    wordXYN g.toNat x.val y.val n.toNat = packXYN g x y n := wordXMN_eq g x (BitVec.ofFin y) n

end Machine

end Sys2Proof
end

