-- ==== Sys2Proof/Laws/Exec.lean ====
section
/-! SUPPORT. What an instruction can do, said once: it leaves its footprint, or it takes a fault on the state at the
start of the step. The whole-machine facts (who writes which register, that memory stays canonical) come from this
without unfolding a meaning again. -/

namespace Sys2Proof.Machine

/-- Memory `m` is `s`'s but for the addresses in `A`, and is canonical if `s`'s is. -/
def MemChanged (s : State) (m : Memory) (A : Nat → Prop) : Prop :=
  Memory.wf s.mem = true → Memory.wf m = true ∧ ∀ a, ¬ A a → Memory.read m a = s.byte a

/-- What each instruction may change, from `s` to `t`, when it raises no fault. Everything not named is as before. -/
def Footprint (s t : State) : Instr → Prop
  | .jp _ | .jpV0 _ | .seImm _ _ | .sneImm _ _ | .seReg _ _ _ | .sneReg _ _ _ | .keyd _ | .keyu _ =>
    t = { s with pc := t.pc }
  | .ldImm x _ | .addImm x _ | .ldReg x _ | .or x _ | .and x _ | .xor x _ | .ldVxDt x =>
    ∃ b, t = { s with pc := s.pc + 2, v := s.v.set x.val b }
  | .add x _ | .sub x _ | .subn x _ | .shr x _ | .shl x _ =>
    ∃ b c, t = { s with pc := s.pc + 2, v := (s.v.set x.val b).set 15 c } ∨
      t = { s with pc := s.pc + 2, v := (s.v.set 15 c).set x.val b }
  | .rnd x nn => ∃ b, b.toNat < nn.toNat ∧
    t = { s with pc := s.pc + 2, v := s.v.set x.val b, draws := s.draws + 1 }
  | .call _ => ∃ m, t = { s with pc := t.pc, sp := s.sp - 2, mem := m } ∧ 0xEA0 < s.sp.toNat ∧
    MemChanged s m fun a => a = (s.sp - 2).toNat ∨ a = (s.sp - 2).toNat + 1
  | .ret _ => t = { s with pc := t.pc, sp := s.sp + 2 } ∧ s.sp.toNat < 0xF00
  | .getk x => ∃ (b : Byte) (bl wr : Bool), t =
      { s with pc := t.pc, v := s.v.set x.val b, blocked := bl, waitingRelease := wr } ∧
    (bl = true → t = s ∨ (t.pc = s.pc ∧ s.waitingRelease = false ∧ (wr = true → b.toNat ≤ 15))) ∧
    (wr = true → bl = true ∨ t = s)
  | .ldDtVx x => t = { s with pc := s.pc + 2, dt := timerValue (s.getV x) }
  | .ldStVx x => t = { s with pc := s.pc + 2, st := timerValue (s.getV x) }
  | .ldI _ | .addI _ | .ldF _ => t = { s with pc := s.pc + 2, i := t.i }
  | .cls _ => ∃ m, t = { s with pc := s.pc + 2, mem := m, displayChanged := true } ∧
    MemChanged s m fun a => 0xF00 ≤ a ∧ a < 0x1000
  | .drw x y n => ∃ m c, t = { s with pc := s.pc + 2, mem := m, v := s.v.set 15 c, displayChanged := true } ∧
    MemChanged s m (drawWrites (s.getV x) (s.getV y) n)
  | .bcd _ => ∃ m, t = { s with pc := s.pc + 2, mem := m } ∧
    MemChanged s m fun a => s.i.toNat ≤ a ∧ a ≤ s.i.toNat + 2
  | .storeRegs x => ∃ m, t = { s with pc := s.pc + 2, mem := m } ∧
    MemChanged s m fun a => s.i.toNat ≤ a ∧ a ≤ s.i.toNat + x.val
  | .loadRegs x => ∃ v, t = { s with pc := s.pc + 2, v := v } ∧ ∀ r : RegIdx, x < r → v[r.val] = s.getV r

/-! ### The storing bodies -/

theorem memChanged_writeAll (s : State) (a : Nat) (bs : List Byte) (h : a + bs.length ≤ 0x1000) :
    MemChanged s (Memory.writeAll s.mem a bs) fun a' => a ≤ a' ∧ a' < a + bs.length := by
  intro hw
  refine ⟨Memory.wf_writeAll hw a bs h, fun a' ha => ?_⟩
  rw [Memory.read_writeAll hw a bs h, dif_neg]
  · rfl
  · intro hh; exact ha ⟨hh.1, by omega⟩

/-- A body that stores consecutive bytes from an address in memory: stored, or a fault at 0x1000. -/
theorem storeBytes_cases {a : Nat} {bs : List Byte} {s : State} {r : Except Fault State} (ha : a ≤ 0x1000)
    (h : storeBytes a bs s = r) :
    (a + bs.length ≤ 0x1000 ∧ r = .ok { s with mem := Memory.writeAll s.mem a bs }) ∨
    (0x1000 < a + bs.length ∧ r = .error (.memoryOutOfRange 0x1000)) := by
  by_cases hl : a + bs.length ≤ 0x1000
  · exact .inl ⟨hl, by rw [← h, storeBytes_ok bs a s hl]⟩
  · exact .inr ⟨by omega, by rw [← h, storeBytes_error bs a s (by omega) ha]⟩

theorem decimalDigits_length (b : Byte) : (decimalDigits b).length = 3 := rfl

theorem regsUpTo_length (x : RegIdx) (s : State) : (regsUpTo x s).length = x.val + 1 := by
  simp only [regsUpTo, List.length_take, Vector.length_toList]; omega

/-- Register `k` is byte `k` of the registers up to `x`. -/
theorem regsUpTo_getElem (x : RegIdx) (s : State) (k : Nat) (h : k < (regsUpTo x s).length) :
    (regsUpTo x s)[k] = s.v[k]'(by rw [regsUpTo_length] at h; omega) := by
  simp only [regsUpTo, List.getElem_take, Vector.getElem_toList]

/-! ### The footprint of each family -/

theorem callBody_footprint {nnn : Addr12} {s t : State} (h : callBody nnn s.advancePc = .ok t) :
    Footprint s t (.call nnn) := by
  unfold callBody at h
  split at h
  · cases h
  · rename_i hsp
    by_cases hr : (s.sp - 2).toNat + 2 ≤ 0x1000
    · simp only [advancePc_sp, memWrite2_ok hr] at h
      cases h
      refine ⟨_, rfl, by simpa using hsp, ?_⟩
      have hm := memChanged_writeAll s (s.sp - 2).toNat [(s.pc + 2).extractLsb' 8 8, (s.pc + 2).extractLsb' 0 8] hr
      intro hw
      refine ⟨(hm hw).1, fun a ha => (hm hw).2 a ?_⟩
      simp only [List.length_cons, List.length_nil]
      omega
    · have e : memWrite2 (s.sp - 2).toNat s.advancePc.pc { s.advancePc with sp := s.sp - 2 } =
          .error (.memoryOutOfRange (s.sp - 2).toNat) := if_neg hr
      rw [advancePc_sp, e] at h
      cases h

theorem retBody_footprint {g : Nibble} {s t : State} (h : retBody s.advancePc = .ok t) :
    Footprint s t (.ret g) := by
  unfold retBody at h
  split at h
  · cases h
  · rename_i hsp
    split at h
    · cases h; exact ⟨rfl, by simpa using hsp⟩
    · cases h

theorem getk_footprint {x : RegIdx} {s t : State} (h : execGetk x s = .next t) : Footprint s t (.getk x) := by
  simp only [execGetk, complete_eq, Host.Outcome.next.injEq] at h
  subst h
  have hset : s.v.set x.val (s.getV x) = s.v := Vector.set_getElem_self _
  split
  · refine ⟨s.getV x, ?_⟩
    rw [hset]
    simp only [getkArmed]
    split
    · have e : s.advancePc.repeatInstr = s := by
        simp only [State.repeatInstr, State.advancePc, add_two_sub_two]
      rw [e]
      exact ⟨s.blocked, s.waitingRelease, rfl, fun _ => .inl rfl, fun _ => .inr rfl⟩
    · exact ⟨false, false, rfl, nofun, nofun⟩
  · rename_i hw
    rw [Bool.not_eq_true, advancePc_waitingRelease] at hw
    simp only [getkIdle]
    split
    · rename_i k hk
      refine ⟨BitVec.ofNat 8 k.val, true, true, rfl, fun _ => .inr ⟨add_two_sub_two s.pc, hw, fun _ => ?_⟩,
        fun _ => .inl rfl⟩
      rw [BitVec.toNat_ofNat]; omega
    · refine ⟨s.getV x, true, false, ?_, fun _ => .inr ⟨add_two_sub_two s.pc, hw, nofun⟩, nofun⟩
      rw [hset, ← hw]; rfl

theorem cls_footprint {g : Nibble} {s t : State} (h : clsBody s.advancePc = .ok t) : Footprint s t (.cls g) := by
  have hl : (List.replicate Config.fbSize (0 : Byte)).length = 256 := List.length_replicate
  unfold clsBody at h
  generalize List.replicate Config.fbSize (0 : Byte) = zeros at h hl
  rw [storeBytes_ok zeros Config.fbBase s.advancePc (by rw [hl])] at h
  cases h
  refine ⟨_, rfl, fun hw => ?_⟩
  have hm := memChanged_writeAll s Config.fbBase zeros (by rw [hl]) hw
  refine ⟨hm.1, fun a ha => hm.2 a ?_⟩
  rw [hl]
  exact ha

theorem spriteAddr_eq (cx cy : Byte) (k : Nat) :
    spriteAddr cx cy k = 0xF00 + 8 * ((cy.toNat + k) % 32) + cx.toNat / 8 := rfl

theorem drw_footprint {x y : RegIdx} {n : Nat} {s t : State} (h : drwBody x y n s.advancePc = .ok t) :
    Footprint s t (.drw x y n) := by
  unfold drwBody at h
  split at h
  · rename_i d hd
    cases h
    have hf := drawRows_frame _ _ _ _ _ _ hd
    refine ⟨d.st.mem, flagByte d.coll, by rw [hf]; rfl, fun hw => ?_⟩
    by_cases hr : ∀ j, 0 ≤ j → j < 0 + n → drawRowInRange s.i (s.getV x) (s.getV y) j
    · obtain ⟨m, c, h', hwm, hread⟩ := drawRows_ok (s.getV x) (s.getV y) n 0 ⟨s.advancePc, false⟩ hr hw
      rw [advancePc_getV, advancePc_getV, h'] at hd
      cases hd
      refine ⟨hwm, fun a ha => hread a fun j h1 h2 => ⟨?_, ?_⟩⟩
      · intro e; exact ha ⟨j, by omega, .inl (e.trans (spriteAddr_eq ..))⟩
      · by_cases h0 : (s.getV x).toNat % 8 = 0
        · exact .inl h0
        · exact .inr fun e => ha ⟨j, by omega, .inr ⟨h0, e.trans (by rw [spriteAddr_eq])⟩⟩
    · obtain ⟨a, j, -, -, -, -, h'⟩ := drawRows_error (s.getV x) (s.getV y) n 0 ⟨s.advancePc, false⟩ hr
      rw [advancePc_getV, advancePc_getV, h'] at hd
      cases hd
  · cases h

/-- With any font LD F,Vx writes `I` and `PC` alone, or takes a fault. -/
theorem execLdFAt_cases {base : Nat} {x : RegIdx} {s t : State} (h : execLdFAt base x s = .next t) :
    Footprint s t (.ldF x) ∨ ∃ f, t = takeFault f (some (encode (.ldF x))) s := by
  refine (attempt_cases h).imp (fun hb => ?_) fun ⟨f, _, e⟩ => ⟨f, e⟩
  simp only [ldFBody] at hb
  split at hb
  · cases hb; rfl
  · cases hb

/-- What an instruction can do: leave its footprint, or take a fault. -/
theorem exec_cases {i : Instr} {s t : State} (h : exec i s = .next t) :
    Footprint s t i ∨ ∃ f, t = takeFault f (some (encode i)) s := by
  cases i with
  | cls g =>
    have h : attempt (.cls g) clsBody s = .next t := h
    exact (attempt_cases h).imp cls_footprint fun ⟨f, _, e⟩ => ⟨f, e⟩
  | ret g => exact (attempt_cases h).imp retBody_footprint fun ⟨f, _, e⟩ => ⟨f, e⟩
  | call nnn => exact (attempt_cases h).imp callBody_footprint fun ⟨f, _, e⟩ => ⟨f, e⟩
  | drw x y n => exact (attempt_cases h).imp drw_footprint fun ⟨f, _, e⟩ => ⟨f, e⟩
  | getk x => exact .inl (getk_footprint h)
  | jp nnn | jpV0 nnn => cases h; exact .inl rfl
  | seImm x nn | sneImm x nn | seReg x y l | sneReg x y l =>
    rw [exec] at h; cases h; left; simp only [Footprint, skipIf_eq]; rfl
  | ldImm x nn | addImm x nn | ldReg x y | or x y | and x y | xor x y | ldVxDt x => cases h; exact .inl ⟨_, rfl⟩
  | add x y | sub x y | subn x y => cases h; exact .inl ⟨_, _, .inl rfl⟩
  | shr x l | shl x l => cases h; exact .inl ⟨_, _, .inr rfl⟩
  | ldDtVx x | ldStVx x | ldI nnn | addI x => cases h; exact .inl rfl
  | rnd x nn =>
    refine (attempt_cases h).imp (fun hb => ?_) fun ⟨f, _, e⟩ => ⟨f, e⟩
    unfold rndBody at hb
    split at hb
    · cases hb
    · rename_i hn
      cases hb
      refine ⟨drawnByte nn s.advancePc, ?_, rfl⟩
      have hpos : 0 < nn.toNat := by
        rcases Nat.eq_zero_or_pos nn.toNat with h0 | h0
        · exact absurd (BitVec.eq_of_toNat_eq h0) hn
        · exact h0
      have := Nat.mod_lt (Config.rngByte s.draws).toNat hpos
      have hlt := nn.isLt
      show (BitVec.ofNat 8 ((Config.rngByte s.draws).toNat % nn.toNat)).toNat < nn.toNat
      rw [BitVec.toNat_ofNat]; omega
  | keyd x | keyu x =>
    refine (attempt_cases h).imp (fun hb => ?_) fun ⟨f, _, e⟩ => ⟨f, e⟩
    simp only [keydBody, keyuBody] at hb
    split at hb
    · cases hb; simp only [Footprint, skipIf_eq]; rfl
    · cases hb
  | ldF x => exact execLdFAt_cases h
  | bcd x =>
    refine (attempt_cases h).imp (fun hb => ?_) fun ⟨f, _, e⟩ => ⟨f, e⟩
    have hi := s.i.isLt
    have ha : s.advancePc.indexAddr 0 ≤ 0x1000 := by simp only [State.indexAddr, advancePc_i]; omega
    rcases storeBytes_cases ha hb with ⟨hl, e⟩ | ⟨-, e⟩
    · cases e
      refine ⟨_, rfl, fun hw => ?_⟩
      have hm := memChanged_writeAll s _ _ hl hw
      refine ⟨hm.1, fun a hna => hm.2 a ?_⟩
      rw [decimalDigits_length]; simp only [State.indexAddr, advancePc_i]; omega
    · cases e
  | storeRegs x =>
    refine (attempt_cases h).imp (fun hb => ?_) fun ⟨f, _, e⟩ => ⟨f, e⟩
    have hi := s.i.isLt
    have ha : s.advancePc.indexAddr 0 ≤ 0x1000 := by simp only [State.indexAddr, advancePc_i]; omega
    rcases storeBytes_cases ha hb with ⟨hl, e⟩ | ⟨-, e⟩
    · cases e
      refine ⟨_, rfl, fun hw => ?_⟩
      have hm := memChanged_writeAll s _ _ hl hw
      refine ⟨hm.1, fun a hna => hm.2 a ?_⟩
      rw [regsUpTo_length]; simp only [State.indexAddr, advancePc_i]; omega
    · cases e
  | loadRegs x =>
    refine (attempt_cases h).imp (fun hb => ?_) fun ⟨f, _, e⟩ => ⟨f, e⟩
    simp only [loadRegsBody] at hb
    split at hb
    · rename_i bs hbs
      cases hb
      refine ⟨_, rfl, fun r hr => ?_⟩
      have hl : bs.length = x.val + 1 := by
        by_cases hle : s.advancePc.indexAddr 0 + (x.val + 1) ≤ 0x1000
        · rw [loadBytes_ok _ _ _ hle] at hbs; cases hbs; simp
        · have hi := s.i.isLt
          rw [loadBytes_error _ _ _ (by omega) (by simp only [State.indexAddr, advancePc_i]; omega)] at hbs
          cases hbs
      rw [getElem_setRegs _ _ _ _ r.isLt, dif_neg]
      · rfl
      · rw [hl]; intro hh; have := Fin.lt_def.1 hr; omega
    · cases hb

/-- No footprint touches the keypad bits, `halted` or the fault record. -/
theorem footprint_halted_fault_keys {s t : State} {i : Instr} (h : Footprint s t i) :
    t.halted = s.halted ∧ t.fault = s.fault ∧ t.keys = s.keys := by
  cases i
  case cls => obtain ⟨m, h, -⟩ := h; rw [h]; exact ⟨rfl, rfl, rfl⟩
  case bcd => obtain ⟨m, h, -⟩ := h; rw [h]; exact ⟨rfl, rfl, rfl⟩
  case storeRegs => obtain ⟨m, h, -⟩ := h; rw [h]; exact ⟨rfl, rfl, rfl⟩
  case loadRegs => obtain ⟨v, h, -⟩ := h; rw [h]; exact ⟨rfl, rfl, rfl⟩
  case drw => obtain ⟨m, c, h, -⟩ := h; rw [h]; exact ⟨rfl, rfl, rfl⟩
  case call => obtain ⟨m, h, -⟩ := h; rw [h]; exact ⟨rfl, rfl, rfl⟩
  case ret => obtain ⟨h, -⟩ := h; rw [h]; exact ⟨rfl, rfl, rfl⟩
  case rnd => obtain ⟨b, -, h⟩ := h; rw [h]; exact ⟨rfl, rfl, rfl⟩
  case getk => obtain ⟨b, bl, wr, h, -⟩ := h; rw [h]; exact ⟨rfl, rfl, rfl⟩
  case ldImm | addImm | ldReg | or | and | xor | ldVxDt => obtain ⟨b, h⟩ := h; rw [h]; exact ⟨rfl, rfl, rfl⟩
  case add | sub | subn | shr | shl => obtain ⟨b, c, h | h⟩ := h <;> (rw [h]; exact ⟨rfl, rfl, rfl⟩)
  all_goals (rw [show t = _ from h]; exact ⟨rfl, rfl, rfl⟩)

/-- Every instruction answers a next state, whatever the state. -/
theorem exec_next (i : Instr) (s : State) : ∃ t, exec i s = .next t := by
  cases i
  case cls g => exact attempt_next (.cls g) clsBody s
  case ret | call | rnd | drw | keyd | keyu | ldF | bcd | storeRegs | loadRegs => exact attempt_next ..
  all_goals exact ⟨_, rfl⟩

/-! ### With the font as an argument -/

/-- The default font is the one of `exec`. -/
theorem execAt_default (i : Instr) (s : State) : execAt Config.font i s = exec i s := by
  cases i <;> rfl

/-- With any font an instruction leaves its footprint, or takes a fault. -/
theorem execAt_cases {font : Font} {i : Instr} {s t : State} (h : execAt font i s = .next t) :
    Footprint s t i ∨ ∃ f, t = takeFault f (some (encode i)) s := by
  cases i
  case ldF x => exact execLdFAt_cases h
  all_goals exact exec_cases h

end Sys2Proof.Machine
end

