-- ==== Sys2Proof/Laws/Params.lean ====
section
/-! SUPPORT. What memory holds after a reset with any font (70_reset_and_hazards.md R251), and what a step and an
instruction with a font as an argument can do. -/

namespace Sys2Proof

/-! ### The font -/

/-- A legal font has 80 bytes, below program space. -/
theorem Font.wf_iff (f : Font) : f.wf = true ↔ f.base + 80 ≤ 0x200 ∧ f.data.length = 80 := by
  simp only [Font.wf, Bool.and_eq_true, decide_eq_true_eq]

theorem Config.font_wf : Config.font.wf = true := by decide

theorem Config.fontData_length : Config.fontData.length = 80 := by decide

namespace Machine

/-! ### Memory at reset -/

theorem Memory.zeroed_fits :
    Config.fontBase + (List.replicate Config.fontData.length (0 : Byte)).length ≤ Config.memSize := by
  simp only [List.length_replicate, Config.fontData_length, Config.memSize, Config.fontBase]; omega

theorem Memory.wf_zeroed : Memory.wf Memory.zeroed = true := by
  delta Memory.zeroed
  exact Memory.wf_writeAll rfl _ _ Memory.zeroed_fits

/-- Every byte of the zeroed memory is 0. -/
theorem Memory.read_zeroed (a : Nat) : Memory.read Memory.zeroed a = 0 := by
  delta Memory.zeroed
  rw [Memory.read_writeAll rfl _ _ Memory.zeroed_fits]
  split
  · exact List.getElem_replicate ..
  · rename_i h
    rw [List.length_replicate] at h
    rw [Memory.read, Memory.unlisted, if_neg (by rw [Config.fontData_length] at h; omega)]

theorem Memory.wf_loaded {font : Font} (hf : font.wf = true) {image : List Byte} (hi : image.length ≤ 3232) :
    Memory.wf (Memory.loaded font image) = true := by
  have := (Font.wf_iff font).1 hf
  have hd : font.base + font.data.length ≤ Config.memSize := by simp only [Config.memSize]; omega
  have hm : Config.progBase + image.length ≤ Config.memSize := by simp only [Config.memSize, Config.progBase]; omega
  rw [Memory.loaded]
  exact Memory.wf_writeAll (Memory.wf_writeAll Memory.wf_zeroed _ _ hd) _ _ hm

section Loaded
variable {font : Font} {image : List Byte} (hf : font.wf = true) (hi : image.length ≤ 3232)
include hf hi

/-- After a reset the image stands at 0x200, in file order. -/
theorem Memory.read_loaded_image {k : Nat} (hk : k < image.length) :
    Memory.read (Memory.loaded font image) (Config.progBase + k) = image[k] := by
  have hl := (Font.wf_iff font).1 hf
  have hd : font.base + font.data.length ≤ Config.memSize := by simp only [Config.memSize]; omega
  have hm : Config.progBase + image.length ≤ Config.memSize := by simp only [Config.memSize, Config.progBase]; omega
  rw [Memory.loaded]
  exact Memory.read_writeAll_at (Memory.wf_writeAll Memory.wf_zeroed _ _ hd) hm hk

/-- Outside the image, memory after a reset is FONT_DATA at FONT_BASE and 0 everywhere else. -/
theorem Memory.read_loaded_outside {a : Nat} (ha : a < Config.progBase ∨ Config.progBase + image.length ≤ a) :
    Memory.read (Memory.loaded font image) a = if font.base ≤ a then font.data.getD (a - font.base) 0 else 0 := by
  have hl := (Font.wf_iff font).1 hf
  have hd : font.base + font.data.length ≤ Config.memSize := by simp only [Config.memSize]; omega
  have hm : Config.progBase + image.length ≤ Config.memSize := by simp only [Config.memSize, Config.progBase]; omega
  rw [Memory.loaded, Memory.read_writeAll_outside (Memory.wf_writeAll Memory.wf_zeroed _ _ hd) hm ha,
    Memory.read_writeAll Memory.wf_zeroed _ _ hd, Memory.read_zeroed]
  by_cases h : font.base ≤ a
  · by_cases h' : a - font.base < font.data.length
    · rw [dif_pos ⟨h, h'⟩, if_pos h, List.getD_eq_getElem _ _ h']
    · rw [dif_neg (fun hh => h' hh.2), if_pos h, List.getD_eq_default _ _ (by omega)]
  · rw [dif_neg (fun hh => h hh.1), if_neg h]

end Loaded

@[simp] theorem resetAt_mem (font : Font) : (State.resetAt font).mem = Memory.loaded font [] := rfl

/-- A byte of memory after a reset with no image. -/
theorem resetAt_byte {font : Font} (hf : font.wf = true) (a : Nat) :
    (State.resetAt font).byte a = if font.base ≤ a then font.data.getD (a - font.base) 0 else 0 := by
  have ha : a < Config.progBase ∨ Config.progBase + ([] : List Byte).length ≤ a := by
    rw [List.length_nil, Nat.add_zero]; exact Nat.lt_or_ge a _
  rw [State.byte, resetAt_mem, Memory.read_loaded_outside hf (Nat.zero_le _) ha]

/-- `Reset(image)` with an image that fits. -/
theorem resetWithAt_ok {font : Font} {image : List Byte} (h : image.length ≤ 3232) {s : State} :
    resetWithAt font image s =
      .next { State.reset with mem := Memory.loaded font image, draws := s.draws } := if_pos h

/-- `Reset(image)` with an image that does not fit. -/
theorem resetWithAt_refused {font : Font} {image : List Byte} (h : 3232 < image.length) {s : State} :
    resetWithAt font image s = .refused (.imageTooLong image.length) := if_neg (Nat.not_le.2 h)

/-! ### The font as an argument of the step -/

/-- A font reaches LD F,Vx alone. -/
theorem execAt_eq_exec (font : Font) {i : Instr} (hi : ∀ x, i ≠ .ldF x) (s : State) : execAt font i s = exec i s := by
  cases i
  case ldF x => exact absurd rfl (hi x)
  all_goals rfl

theorem execLdFAt_ok {base : Nat} {x : RegIdx} {s : State} (h : (s.getV x).toNat ≤ 15) :
    execLdFAt base x s =
      .next { s with pc := s.pc + 2, i := BitVec.ofNat 12 (base + 5 * (s.getV x).toNat) } := by
  refine attempt_ok ?_
  rw [ldFBody, glyphOperand_ok (s := s.advancePc) h]
  rfl

theorem execLdFAt_error {base : Nat} {x : RegIdx} {s : State} (h : 15 < (s.getV x).toNat) :
    execLdFAt base x s =
      .next (takeFault (.fontIndexOutOfRange (s.getV x)) (some (encode (.ldF x))) s) := by
  refine attempt_error ?_
  rw [ldFBody, glyphOperand_error (s := s.advancePc) h]
  rfl

end Machine

end Sys2Proof
end

