-- ==== Sys2Proof/Laws/PerInstr.lean ====
section
/-! SUPPORT. Facts about every instruction as syntax, one lemma per constructor. -/

namespace Sys2Proof.Laws.EncodedRow

/-- The word of an instruction matches its row of spec/opcode_table.json: the fixed bits are the row's. -/
def Statement (i : Instr) : Prop := encode i &&& i.row.mask = i.row.value

/-- A row that fixes the top nibble alone. -/
theorem of_group {w v : Word} {g : Nibble} (hg : opGroup w = g) (hv : packNNN g 0 = v) : w &&& 0xF000 = v := by
  rw [and_groupMask, hg, hv]

/-- A row that fixes the top nibble and the low byte. -/
theorem of_byte {w v : Word} {g : Nibble} {b : Byte} (hg : opGroup w = g) (hb : opNN w = b)
    (hv : packSel g 0 b = v) : w &&& 0xF0FF = v := by
  rw [and_selectorByteMask, hg, hb, hv]

/-- A row that fixes the top nibble and the low nibble. -/
theorem of_nibble {w v : Word} {g n : Nibble} (hg : opGroup w = g) (hn : opN w = n)
    (hv : packXMN g 0 0 n = v) : w &&& 0xF00F = v := by
  rw [and_selectorNibbleMask, hg, hn, hv]

theorem cls (ignored : Nibble) : Statement (.cls ignored) :=
  of_byte (opGroup_packSel _ _ _) (opNN_packSel _ _ _) rfl

theorem ret (ignored : Nibble) : Statement (.ret ignored) :=
  of_byte (opGroup_packSel _ _ _) (opNN_packSel _ _ _) rfl

theorem jp (nnn : Addr12) : Statement (.jp nnn) :=
  of_group (opGroup_packNNN _ _) rfl

theorem call (nnn : Addr12) : Statement (.call nnn) :=
  of_group (opGroup_packNNN _ _) rfl

theorem seImm (x : RegIdx) (nn : Byte) : Statement (.seImm x nn) :=
  of_group (opGroup_packXNN _ _ _) rfl

theorem sneImm (x : RegIdx) (nn : Byte) : Statement (.sneImm x nn) :=
  of_group (opGroup_packXNN _ _ _) rfl

theorem seReg (x y : RegIdx) (ignored : Nibble) : Statement (.seReg x y ignored) :=
  of_group (opGroup_packXYN _ _ _ _) rfl

theorem ldImm (x : RegIdx) (nn : Byte) : Statement (.ldImm x nn) :=
  of_group (opGroup_packXNN _ _ _) rfl

theorem addImm (x : RegIdx) (nn : Byte) : Statement (.addImm x nn) :=
  of_group (opGroup_packXNN _ _ _) rfl

theorem ldReg (x y : RegIdx) : Statement (.ldReg x y) :=
  of_nibble (opGroup_packXYN _ _ _ _) (opN_packXYN _ _ _ _) rfl

theorem or (x y : RegIdx) : Statement (.or x y) :=
  of_nibble (opGroup_packXYN _ _ _ _) (opN_packXYN _ _ _ _) rfl

theorem and (x y : RegIdx) : Statement (.and x y) :=
  of_nibble (opGroup_packXYN _ _ _ _) (opN_packXYN _ _ _ _) rfl

theorem xor (x y : RegIdx) : Statement (.xor x y) :=
  of_nibble (opGroup_packXYN _ _ _ _) (opN_packXYN _ _ _ _) rfl

theorem add (x y : RegIdx) : Statement (.add x y) :=
  of_nibble (opGroup_packXYN _ _ _ _) (opN_packXYN _ _ _ _) rfl

theorem sub (x y : RegIdx) : Statement (.sub x y) :=
  of_nibble (opGroup_packXYN _ _ _ _) (opN_packXYN _ _ _ _) rfl

theorem shr (x : RegIdx) (ignored : Nibble) : Statement (.shr x ignored) :=
  of_nibble (opGroup_packXMN _ _ _ _) (opN_packXMN _ _ _ _) rfl

theorem subn (x y : RegIdx) : Statement (.subn x y) :=
  of_nibble (opGroup_packXYN _ _ _ _) (opN_packXYN _ _ _ _) rfl

theorem shl (x : RegIdx) (ignored : Nibble) : Statement (.shl x ignored) :=
  of_nibble (opGroup_packXMN _ _ _ _) (opN_packXMN _ _ _ _) rfl

theorem sneReg (x y : RegIdx) (ignored : Nibble) : Statement (.sneReg x y ignored) :=
  of_group (opGroup_packXYN _ _ _ _) rfl

theorem ldI (nnn : Addr12) : Statement (.ldI nnn) :=
  of_group (opGroup_packNNN _ _) rfl

theorem jpV0 (nnn : Addr12) : Statement (.jpV0 nnn) :=
  of_group (opGroup_packNNN _ _) rfl

theorem rnd (x : RegIdx) (nn : Byte) : Statement (.rnd x nn) :=
  of_group (opGroup_packXNN _ _ _) rfl

theorem drw (x y : RegIdx) (n : Nat) : Statement (.drw x y n) :=
  of_group (opGroup_packXYN _ _ _ _) rfl

theorem keyd (x : RegIdx) : Statement (.keyd x) :=
  of_byte (opGroup_packXNN _ _ _) (opNN_packXNN _ _ _) rfl

theorem keyu (x : RegIdx) : Statement (.keyu x) :=
  of_byte (opGroup_packXNN _ _ _) (opNN_packXNN _ _ _) rfl

theorem ldVxDt (x : RegIdx) : Statement (.ldVxDt x) :=
  of_byte (opGroup_packXNN _ _ _) (opNN_packXNN _ _ _) rfl

theorem getk (x : RegIdx) : Statement (.getk x) :=
  of_byte (opGroup_packXNN _ _ _) (opNN_packXNN _ _ _) rfl

theorem ldDtVx (x : RegIdx) : Statement (.ldDtVx x) :=
  of_byte (opGroup_packXNN _ _ _) (opNN_packXNN _ _ _) rfl

theorem ldStVx (x : RegIdx) : Statement (.ldStVx x) :=
  of_byte (opGroup_packXNN _ _ _) (opNN_packXNN _ _ _) rfl

theorem addI (x : RegIdx) : Statement (.addI x) :=
  of_byte (opGroup_packXNN _ _ _) (opNN_packXNN _ _ _) rfl

theorem ldF (x : RegIdx) : Statement (.ldF x) :=
  of_byte (opGroup_packXNN _ _ _) (opNN_packXNN _ _ _) rfl

theorem bcd (x : RegIdx) : Statement (.bcd x) :=
  of_byte (opGroup_packXNN _ _ _) (opNN_packXNN _ _ _) rfl

theorem storeRegs (x : RegIdx) : Statement (.storeRegs x) :=
  of_byte (opGroup_packXNN _ _ _) (opNN_packXNN _ _ _) rfl

theorem loadRegs (x : RegIdx) : Statement (.loadRegs x) :=
  of_byte (opGroup_packXNN _ _ _) (opNN_packXNN _ _ _) rfl

end Sys2Proof.Laws.EncodedRow
end

