-- ==== Sys2Proof/Tests/Slice0.lean ====
section
/-! SUPPORT. The model's own tests: the well-formedness smoke test, a word for every constructor written out from the
spec's encoding (30_encoding.md R84 to R91), one step of each instruction with the result taken from
95_test_vectors.md, and a witness for the hypotheses of every obligation that has some. -/

namespace Sys2Proof.Tests

open Sys2Proof.Machine

/-! ### Small states -/

/-- The reset state with `PC` moved and an instruction word there. -/
def fetching (pc w : Nat) : State := { State.reset with pc := BitVec.ofNat 16 pc }.withFetchWord 16 w

/-- The state with some registers set. -/
def withV (l : List (Nat × Nat)) (s : State) : State :=
  l.foldl (fun s p => s.setV (Fin.ofNat 16 p.1) (BitVec.ofNat 8 p.2)) s

/-- The state with bytes in memory. -/
def withBytes (a : Nat) (bs : List Byte) (s : State) : State := { s with mem := Memory.writeAll s.mem a bs }

/-- One step answers a next state, and it meets the condition. -/
def after (s : State) (p : State → Bool) : Bool :=
  match step s with
  | .next t => p t
  | .fault _ => false
  | .refused _ => false

/-- One step takes this fault and changes nothing else. -/
def faultsWith (s : State) (f : Fault) (op : Option Word) : Bool := after s fun t => decide (t = s.faulted f op)

/-! ### Well-formedness -/

theorem test_height_16_is_ill_formed : (Instr.drw 0 0 16).wellFormed = false := by decide
theorem test_height_15_is_well_formed : (Instr.drw 15 15 15).wellFormed = true := by decide

/-! ### A word for every constructor, bit by bit (30_encoding.md R84 to R91) -/

theorem test_decode_group_0 :
    decode 0b0000_0000_1110_0000 = .ok (.cls 0) ∧ decode 0b0000_0101_1110_0000 = .ok (.cls 5) ∧
    decode 0b0000_0000_1110_1110 = .ok (.ret 0) ∧ decode 0b0000_0101_1110_1110 = .ok (.ret 5) := by decide

theorem test_decode_addresses :
    decode 0b0001_0010_0011_0100 = .ok (.jp 0x234) ∧ decode 0b0010_0011_0000_0000 = .ok (.call 0x300) ∧
    decode 0b1010_0010_1111_0000 = .ok (.ldI 0x2F0) ∧ decode 0b1011_1111_1111_1111 = .ok (.jpV0 0xFFF) := by decide

theorem test_decode_immediates :
    decode 0b0011_1111_0000_0000 = .ok (.seImm 15 0) ∧ decode 0b0100_0001_0000_0001 = .ok (.sneImm 1 1) ∧
    decode 0b0110_0000_0000_0101 = .ok (.ldImm 0 5) ∧ decode 0b0111_0000_0000_0011 = .ok (.addImm 0 3) ∧
    decode 0b1100_0101_1111_1111 = .ok (.rnd 5 0xFF) := by decide

theorem test_decode_register_pairs :
    decode 0b0101_0010_0011_0001 = .ok (.seReg 2 3 1) ∧ decode 0b1001_0010_0011_1111 = .ok (.sneReg 2 3 15) ∧
    decode 0b1000_0001_0010_0000 = .ok (.ldReg 1 2) ∧ decode 0b1000_0001_0010_0001 = .ok (.or 1 2) ∧
    decode 0b1000_0001_0010_0010 = .ok (.and 1 2) ∧ decode 0b1000_0001_0010_0011 = .ok (.xor 1 2) ∧
    decode 0b1000_0001_0010_0100 = .ok (.add 1 2) ∧ decode 0b1000_0001_0010_0101 = .ok (.sub 1 2) ∧
    decode 0b1000_0001_0010_0110 = .ok (.shr 1 2) ∧ decode 0b1000_0001_0010_0111 = .ok (.subn 1 2) ∧
    decode 0b1000_0001_0010_1110 = .ok (.shl 1 2) ∧ decode 0b1101_0001_0010_0101 = .ok (.drw 1 2 5) := by decide

theorem test_decode_group_E : decode 0b1110_0101_1001_1110 = .ok (.keyd 5) ∧
    decode 0b1110_0101_1010_0001 = .ok (.keyu 5) := by decide

theorem test_decode_group_F :
    decode 0b1111_0001_0000_0111 = .ok (.ldVxDt 1) ∧ decode 0b1111_0011_0000_1010 = .ok (.getk 3) ∧
    decode 0b1111_0001_0001_0101 = .ok (.ldDtVx 1) ∧ decode 0b1111_0001_0001_1000 = .ok (.ldStVx 1) ∧
    decode 0b1111_0010_0001_1110 = .ok (.addI 2) ∧ decode 0b1111_0000_0010_1001 = .ok (.ldF 0) ∧
    decode 0b1111_0100_0011_0011 = .ok (.bcd 4) ∧ decode 0b1111_0011_0101_0101 = .ok (.storeRegs 3) ∧
    decode 0b1111_0010_0110_0101 = .ok (.loadRegs 2) := by decide

/-- ED-6 to ED-10. -/
theorem test_decode_unknown :
    decode 0x0123 = .error (.unknownOpcode 0x0123) ∧ decode 0x00E1 = .error (.unknownOpcode 0x00E1) ∧
    decode 0x800D = .error (.unknownOpcode 0x800D) ∧ decode 0xE09F = .error (.unknownOpcode 0xE09F) ∧
    decode 0xF0FF = .error (.unknownOpcode 0xF0FF) := by decide

theorem test_decode_bytes : decodeBytes [0x60, 0x05, 0x70] = .ok (.ldImm 0 5, [0x70]) ∧
    decodeBytes [0x60] = .error .truncated ∧ decodeTableWord 16 0x6005 = some (.ldImm 0 5) := by decide

/-! ### Fetch (95_test_vectors.md, ED) -/

/-- ED-1. -/
theorem test_last_fetch : after (fetching 0xE9E 0x6007) (fun t => t.getV 0 == 7 && t.pc == 0xEA0) = true := by decide
/-- ED-2. -/
theorem test_fetch_past_end : faultsWith (fetching 0xE9F 0x6007) (.fetchOutOfRange 0xE9F) none = true := by decide
/-- ED-4: an odd `PC`. -/
theorem test_odd_pc : after (fetching 0x201 0x6005) (fun t => t.getV 0 == 5 && t.pc == 0x203) = true := by decide
/-- ED-5. -/
theorem test_empty_memory_is_unknown : faultsWith State.reset (.unknownOpcode 0) (some 0) = true := by decide
/-- ED-12. -/
theorem test_status_after_unknown : after State.reset (fun t => t.statusWord == 0x0201) = true := by decide +kernel

/-! ### Flow control (FC) -/

/-- FC-1. -/
theorem test_jp : after (fetching 0x200 0x1234) (fun t => t.pc == 0x234) = true := by decide
/-- FC-4: no wrap at 12 bits. -/
theorem test_jpV0 : after (withV [(0, 0xFF)] (fetching 0x200 0xBFFF)) (fun t => t.pc == 0x10FE) = true := by decide
/-- FC-5. -/
theorem test_call : after (fetching 0x200 0x2300)
    (fun t => t.sp == 0xEFE && t.byte 0xEFE == 2 && t.byte 0xEFF == 2 && t.pc == 0x300) = true := by decide
/-- FC-6. -/
theorem test_call_full : faultsWith { fetching 0x400 0x2500 with sp := 0xEA0 } (.stackOverflow 0xEA0)
    (some 0x2500) = true := by decide
/-- FC-18. -/
theorem test_ret : after (withBytes 0xEFE [2, 2] { fetching 0x300 0x05EE with sp := 0xEFE })
    (fun t => t.pc == 0x202 && t.sp == 0xF00 && t.byte 0xEFF == 2) = true := by decide
/-- FC-8. -/
theorem test_ret_empty : faultsWith (fetching 0x200 0x00EE) (.stackUnderflow 0xF00) (some 0x00EE) = true := by decide
/-- FC-10. -/
theorem test_seImm : after (withV [(0, 5)] (fetching 0x208 0x3005)) (fun t => t.pc == 0x20C) = true := by decide
/-- FC-12. -/
theorem test_sneImm : after (fetching 0x200 0x4100) (fun t => t.pc == 0x202) = true := by decide
/-- FC-13. -/
theorem test_seReg : after (withV [(2, 7), (3, 7)] (fetching 0x300 0x5231)) (fun t => t.pc == 0x304) = true := by decide
/-- FC-15. -/
theorem test_sneReg : after (withV [(2, 7), (3, 8)] (fetching 0x300 0x9230)) (fun t => t.pc == 0x304) = true := by
  decide

/-! ### Register loads, arithmetic, logic and shifts (AL) -/

/-- AL-1. -/
theorem test_ldImm : after (fetching 0x200 0x6FFF) (fun t => t.getV 15 == 0xFF) = true := by decide
/-- AL-2. -/
theorem test_addImm : after (withV [(0, 0xFF), (15, 0x55)] (fetching 0x200 0x7002))
    (fun t => t.getV 0 == 1 && t.getV 15 == 0x55) = true := by decide
/-- AL-15. -/
theorem test_ldReg : after (withV [(3, 0x42), (15, 1)] (fetching 0x200 0x8130))
    (fun t => t.getV 1 == 0x42 && t.getV 15 == 1) = true := by decide
/-- AL-16. -/
theorem test_or : after (withV [(0, 0xF0), (1, 0x0F), (15, 7)] (fetching 0x200 0x8011))
    (fun t => t.getV 0 == 0xFF && t.getV 15 == 7) = true := by decide
/-- AL-16. -/
theorem test_and : after (withV [(0, 0xF0), (1, 0x0F), (15, 7)] (fetching 0x200 0x8012))
    (fun t => t.getV 0 == 0 && t.getV 15 == 7) = true := by decide
/-- AL-16. -/
theorem test_xor : after (withV [(0, 0xF0), (1, 0x0F), (15, 7)] (fetching 0x200 0x8013))
    (fun t => t.getV 0 == 0xFF && t.getV 15 == 7) = true := by decide
/-- AL-4. -/
theorem test_add : after (withV [(0, 200), (1, 56)] (fetching 0x200 0x8014))
    (fun t => t.getV 0 == 0 && t.getV 15 == 1) = true := by decide
/-- AL-5: the carry stands, not the sum. -/
theorem test_add_to_VF : after (withV [(15, 0x10), (1, 0x20)] (fetching 0x200 0x8F14)) (fun t => t.getV 15 == 0) = true := by
  decide
/-- AL-7. -/
theorem test_sub : after (withV [(0, 3), (1, 10)] (fetching 0x200 0x8015))
    (fun t => t.getV 0 == 0xF9 && t.getV 15 == 0) = true := by decide
/-- AL-8: `y = 15` reads the old flag. -/
theorem test_sub_reads_old_VF : after (withV [(0, 0x10), (15, 1)] (fetching 0x200 0x80F5))
    (fun t => t.getV 0 == 0x0F && t.getV 15 == 1) = true := by decide
/-- AL-14. -/
theorem test_subn : after (withV [(0, 10), (1, 3)] (fetching 0x200 0x8017))
    (fun t => t.getV 0 == 0xF9 && t.getV 15 == 0) = true := by decide
/-- AL-13: the ignored bits name no register. -/
theorem test_shr : after (withV [(2, 4), (3, 0xFF)] (fetching 0x200 0x8236))
    (fun t => t.getV 2 == 2 && t.getV 15 == 0 && t.getV 3 == 0xFF) = true := by decide
/-- AL-10. -/
theorem test_shr_VF : after (withV [(15, 3)] (fetching 0x200 0x8F06)) (fun t => t.getV 15 == 0) = true := by decide
/-- AL-11. -/
theorem test_shl : after (withV [(2, 0x81)] (fetching 0x200 0x820E))
    (fun t => t.getV 2 == 2 && t.getV 15 == 1) = true := by decide
/-- AL-12. -/
theorem test_shl_VF : after (withV [(15, 0x80)] (fetching 0x200 0x8F0E)) (fun t => t.getV 15 == 2) = true := by decide
/-- AL-21. -/
theorem test_rnd_zero : faultsWith (fetching 0x200 0xC500) (.randomModulusZero 0) (some 0xC500) = true := by decide
/-- AL-19: whatever the free value, a draw below 1 is 0. -/
theorem test_rnd_one : ∃ t, step (fetching 0x200 0xC001) = .next t ∧ t.getV 0 = 0 := by
  refine ⟨_, rfl, ?_⟩
  exact congrArg (BitVec.ofNat 8) (Nat.mod_one (Config.rngByte 0).toNat)

/-! ### Keypad and timers (KT) -/

/-- KT-1. -/
theorem test_keyd : after { withV [(5, 10)] (fetching 0x210 0xE59E) with keys := State.reset.keys.set 10 true }
    (fun t => t.pc == 0x214) = true := by decide
/-- KT-4. -/
theorem test_keyd_no_key : faultsWith (withV [(5, 16)] (fetching 0x210 0xE59E)) (.keyIndexOutOfRange 16)
    (some 0xE59E) = true := by decide
/-- KT-3. -/
theorem test_keyu : after (withV [(5, 10)] (fetching 0x210 0xE5A1)) (fun t => t.pc == 0x214) = true := by decide
/-- KT-5, step 2: the lowest pressed key is latched. -/
theorem test_getk_latches :
    after { fetching 0x200 0xF30A with keys := (State.reset.keys.set 9 true).set 4 true, blocked := true }
      (fun t => t.getV 3 == 4 && t.blocked && t.waitingRelease && t.pc == 0x200) = true := by decide
/-- KT-5, step 4: key 9 is still held, key 4 is released. -/
theorem test_getk_completes :
    after { withV [(3, 4)] (fetching 0x200 0xF30A) with
        keys := State.reset.keys.set 9 true, blocked := true, waitingRelease := true }
      (fun t => t.getV 3 == 4 && !t.blocked && !t.waitingRelease && t.pc == 0x202) = true := by decide
/-- KT-11: 44.5 reads as 44. -/
theorem test_ldVxDt : after { fetching 0x200 0xF107 with dt := 89 / 2 } (fun t => t.getV 1 == 44) = true := by
  decide +kernel
/-- KT-9. -/
theorem test_ldDtVx : after (withV [(0, 0x3C)] (fetching 0x200 0xF015)) (fun t => t.dt == 60) = true := by
  decide +kernel
/-- KT-13. -/
theorem test_ldStVx : after (withV [(1, 5)] (fetching 0x200 0xF118)) (fun t => t.st == 5 && t.soundActive) = true := by
  decide +kernel
/-- KT-12 and KT-10: clamped at zero, and 60 - 15. -/
theorem test_countDown : countDown 3 (60 * 10) = 0 ∧ countDown 60 (60 * (1 / 4)) = 45 := by decide +kernel

/-! ### Index and memory (MI) -/

/-- MI-1. -/
theorem test_ldI : after (fetching 0x200 0xA2F0) (fun t => t.i == 0x2F0) = true := by decide
/-- MI-3. -/
theorem test_addI : after { withV [(0, 2)] (fetching 0x200 0xF01E) with i := 0xFFF }
    (fun t => t.i == 1 && t.getV 15 == 0) = true := by decide
/-- MI-5. -/
theorem test_ldF : after (withV [(0, 15)] (fetching 0x200 0xF029))
    (fun t => t.i == 0x04B && t.byte 0x04B == 0xF0 && t.byte 0x04C == 0x80) = true := by decide
/-- MI-6. -/
theorem test_ldF_no_digit : faultsWith { withV [(0, 16)] (fetching 0x200 0xF029) with i := 0x123 }
    (.fontIndexOutOfRange 16) (some 0xF029) = true := by decide
/-- WE-3. -/
theorem test_bcd : after { withV [(4, 157)] (fetching 0x200 0xF433) with i := 0x300 }
    (fun t => t.byte 0x300 == 1 && t.byte 0x301 == 5 && t.byte 0x302 == 7 && t.i == 0x300) = true := by decide
/-- MI-10: rolled back. -/
theorem test_bcd_past_end : faultsWith { withV [(1, 157)] (fetching 0x200 0xF133) with i := 0xFFE }
    (.memoryOutOfRange 0x1000) (some 0xF133) = true := by decide
/-- WE-2c. -/
theorem test_storeRegs : after { withV [(0, 3), (1, 7), (2, 9), (3, 1), (4, 8)] (fetching 0x202 0xF355) with i := 0x2F0 }
    (fun t => t.byte 0x2F0 == 3 && t.byte 0x2F1 == 7 && t.byte 0x2F2 == 9 && t.byte 0x2F3 == 1 && t.byte 0x2F4 == 0) = true := by
  decide
/-- MI-13. -/
theorem test_storeRegs_past_end : faultsWith { fetching 0x200 0xFF55 with i := 0xFF1 } (.memoryOutOfRange 0x1000)
    (some 0xFF55) = true := by decide
/-- MI-14. -/
theorem test_loadRegs : after (withBytes 0x300 [1, 5, 7, 9] { fetching 0x200 0xF265 with i := 0x300 })
    (fun t => t.getV 0 == 1 && t.getV 1 == 5 && t.getV 2 == 7 && t.getV 3 == 0) = true := by decide
/-- MI-17. -/
theorem test_loadRegs_past_end : faultsWith { withV [(0, 0x33)] (fetching 0x200 0xF165) with i := 0xFFF }
    (.memoryOutOfRange 0x1000) (some 0xF165) = true := by decide

/-! ### Display (DR) -/

/-- DR-1, at the two ends of the framebuffer and just below it. -/
theorem test_cls : after (withBytes 0xFFF [0xFF] (withBytes 0xEFF [0xFF, 0xFF] (fetching 0x200 0x00E0)))
    (fun t => t.byte 0xEFF == 0xFF && t.byte 0xF00 == 0 && t.byte 0xFFF == 0 && t.displayChanged) = true := by
  decide +kernel
/-- DR-10: the sprite bleeds into the next row. -/
theorem test_drw : after (withBytes 0x300 [0xFF] { withV [(0, 60)] (fetching 0x200 0xD011) with i := 0x300 })
    (fun t => t.byte 0xF07 == 0xF0 && t.byte 0xF08 == 0x0F && t.getV 15 == 0 && t.displayChanged) = true := by decide
/-- DR-17: a later row reads what an earlier row wrote. -/
theorem test_drw_aliasing : after (withBytes 0xF07 [0x80] { withV [(1, 1)] (fetching 0x200 0xD012) with i := 0xF07 })
    (fun t => t.byte 0xF08 == 1 && t.byte 0xF10 == 0x80 && t.getV 15 == 0) = true := by decide

/-! ### The font as a parameter (R50, I26) -/

/-- A font of 80 bytes 0x11, as high as a font may lie. -/
def topFont : Font := { base := 0x1B0, data := List.replicate 80 0x11 }

theorem topFont_wf : topFont.wf = true := by decide

/-- R172 with FONT_BASE 0x1B0: 0x1B0 + 5 * 15. -/
theorem test_ldF_with_another_font :
    (match stepAt topFont (withV [(0, 15)] (fetching 0x200 0xF029)) with
     | .next t => t.i == 0x1FB
     | _ => false) = true := by decide

/-- R251 with that font: the bytes around its two ends, and 0x00 where the default font would be. -/
theorem test_reset_with_another_font :
    let t := State.resetAt topFont
    t.byte 0 = 0 ∧ t.byte 0x1AF = 0 ∧ t.byte 0x1B0 = 0x11 ∧ t.byte 0x1FF = 0x11 ∧ t.byte 0x200 = 0 := by
  simp only [resetAt_byte topFont_wf]
  decide

/-! ### Host (HR) -/

/-- HR-2: the byte after an image of odd length stays 0x00. -/
theorem test_reset_odd_image :
    Memory.read (Memory.loaded Config.font [0x60]) (Config.progBase + 0) = 0x60 ∧
    Memory.read (Memory.loaded Config.font [0x60]) (Config.progBase + 1) = 0 := by
  have hl : ([0x60] : List Byte).length ≤ 3232 := by decide
  rw [Memory.read_loaded_image Config.font_wf hl (k := 0) (by decide),
    Memory.read_loaded_outside Config.font_wf hl (.inr (by decide))]
  decide

/-! ### Witnesses: every obligation's hypotheses can be met -/

/-- The invariant of a state that differs from reset in memory, registers, `I` and `PC` alone. -/
theorem inv_of_running (m : Memory) (v : Vector Byte 16) (i : Addr12) (pc : Word) (h : Memory.wf m = true) :
    Inv { State.reset with mem := m, v := v, i := i, pc := pc } where
  memory_canonical := h
  sp_in_region := (by decide : 0xEA0 ≤ (0xF00 : Word).toNat ∧ (0xF00 : Word).toNat ≤ 0xF00)
  sp_even := (by decide : (0xF00 : Word).toNat % 2 = 0)
  dt_range := (by decide +kernel : (0 : Rat) ≤ 0 ∧ (0 : Rat) ≤ 255)
  st_range := (by decide +kernel : (0 : Rat) ≤ 0 ∧ (0 : Rat) ≤ 255)
  wait_flags := nofun
  blocked_at_getk := nofun
  fault_halts := fun h => absurd rfl h

theorem inv_fetching (pc w : Nat) (h : Memory.wf (fetching pc w).mem = true) : Inv (fetching pc w) :=
  inv_of_running _ _ _ _ h

/-- A draw in range, from its rows. -/
theorem drawInRange_of_rows {s : State} {cx cy : Byte} {n : Nat}
    (h : ∀ k < n, s.i.toNat + k < 0x1000 ∧ 0xF00 + 8 * ((cy.toNat + k) % 32) + cx.toNat / 8 < 0x1000 ∧
      (cx.toNat % 8 ≠ 0 → 0xF00 + 8 * ((cy.toNat + k) % 32) + cx.toNat / 8 + 1 < 0x1000)) :
    s.drawInRange cx cy n := by
  rintro a (⟨k, hk, rfl⟩ | ⟨k, hk, rfl | ⟨hs, rfl⟩⟩)
  · exact (h k hk).1
  · exact (h k hk).2.1
  · exact (h k hk).2.2 hs

/-- A sprite below the framebuffer is apart from it. -/
theorem spriteApart_of_below {s : State} {n : Nat} (cx cy : Byte) (h : s.i.toNat + n ≤ 0xF00) :
    s.spriteApart cx cy n := by
  rintro a ⟨k, hk, rfl⟩ ⟨j, -, e | ⟨-, e⟩⟩ <;> omega

theorem witness_DecodeInvertsEncode : (Instr.drw 1 2 0).wellFormed = true ∧ (Instr.drw 1 2 15).wellFormed = true := by
  decide

theorem witness_EncodeInvertsDecode : decode 0xDFFF = .ok (.drw 15 15 15) ∧ decode 0x00E0 = .ok (.cls 0) := by decide

theorem witness_DecodeFollowsOpcodeTable : (Instr.add 0 1).row.matches 0x8014 ∧ ¬ (Instr.add 0 1).row.matches 0x8015 := by
  decide

theorem witness_UnknownWordsAreExactlyThese : State.reset.halted = false ∧ State.reset.fetchable = true ∧
    unknownWord (State.reset.word State.reset.pc.toNat).toNat ∧ unknownWord 0x8008 ∧ unknownWord 0x800F ∧
    unknownWord 0xE000 ∧ unknownWord 0xFFFF ∧ ¬ unknownWord 0x00EE := by
  unfold unknownWord
  exact ⟨by decide, by decide, by decide, by decide, by decide, by decide, by decide, by decide⟩

/-- At both ends of program space. -/
theorem witness_StepRunsDecodedInstr :
    (fetching 0x200 0x6005).halted = false ∧ (fetching 0xE9E 0x6005).halted = false ∧
    (0x200 ≤ 0x200 ∧ 0xE9E + 2 ≤ 0xEA0) ∧
    decode (BitVec.ofNat 16 (((fetching 0x200 0x6005).byte 0x200).toNat * 256 + ((fetching 0x200 0x6005).byte 0x201).toNat)) =
      .ok (.ldImm 0 5) ∧
    decode (BitVec.ofNat 16 (((fetching 0xE9E 0x6005).byte 0xE9E).toNat * 256 + ((fetching 0xE9E 0x6005).byte 0xE9F).toNat)) =
      .ok (.ldImm 0 5) := by decide

theorem witness_FetchOutsideProgramSpaceFaults : (fetching 0x1FF 0).halted = false ∧ (fetching 0x1FF 0).pc.toNat < 0x200 ∧
    (fetching 0xE9F 0).pc.toNat + 2 > 0xEA0 := by decide

theorem witness_OnlyResetEndsHalt :
    (haltCore State.reset).halted = true ∧ (∀ image, HostOp.halt ≠ .reset image) ∧
    perform .halt (haltCore State.reset) = .next (haltCore State.reset) ∧ ([] : List Byte).length ≤ 3232 :=
  ⟨rfl, nofun, rfl, by decide⟩

/-- A fault of the fetch, of the decode, and of an instruction. -/
theorem witness_FaultedStepRollsBack :
    (∃ t, step (fetching 0xEA0 0) = .next t ∧ t.halted = true) ∧
    (∃ t, step State.reset = .next t ∧ t.halted = true) ∧
    (∃ t, step (fetching 0x200 0x00EE) = .next t ∧ t.halted = true) ∧ (fetching 0x200 0x00EE).halted = false :=
  ⟨⟨_, rfl, rfl⟩, ⟨_, rfl, rfl⟩, ⟨_, rfl, rfl⟩, rfl⟩

theorem witness_OneFaultKindPerInstruction : Inv (fetching 0x200 0x00EE) ∧ (fetching 0x200 0x00EE).runsNext (.ret 0) ∧
    ∃ t, step (fetching 0x200 0x00EE) = .next t ∧ t.halted = true :=
  ⟨inv_fetching _ _ (by decide), ⟨by decide, by decide, by decide⟩, _, rfl, rfl⟩

/-- Just below and just above the targets that can be fetched from. -/
theorem witness_JumpsSetPcExactly :
    (∃ t, exec (.jp 0x1FF) State.reset = .next t ∧ State.reset.halted = false ∧ t.pc.toNat < 0x200) ∧
    (∃ t, exec (.jpV0 0xE9F) State.reset = .next t ∧ State.reset.halted = false ∧ 0xE9E < t.pc.toNat) :=
  ⟨⟨_, rfl, rfl, by decide⟩, ⟨_, rfl, rfl, by decide⟩⟩

/-- A full stack, the last free entry, and the empty stack. -/
theorem witness_CallPushesReturnAddress : ({ State.reset with sp := 0xEA0 } : State).sp.toNat ≤ 0xEA0 ∧
    Memory.wf State.reset.mem = true ∧ 0xEA0 < ({ State.reset with sp := 0xEA2 } : State).sp.toNat ∧
    0xEA0 < State.reset.sp.toNat ∧ State.reset.sp.toNat ≤ 0xF00 := by decide

theorem witness_RetPopsReturnAddress : 0xF00 ≤ State.reset.sp.toNat ∧
    ({ State.reset with sp := 0xEFE } : State).sp.toNat < 0xF00 ∧
    ∃ t, exec (.ret 0) (withBytes 0xEFE [0x0F, 0x00] { State.reset with sp := 0xEFE }) = .next t ∧ t.halted = false ∧
      0xE9E < t.pc.toNat := ⟨by decide, by decide, _, rfl, rfl, by decide⟩

theorem witness_RetResumesAfterCall : Memory.wf State.reset.mem = true ∧ 0xEA0 < State.reset.sp.toNat ∧
    State.reset.sp.toNat ≤ 0xF00 ∧ ∃ t u : State, exec (.call 0x300) State.reset = .next t ∧ u.sp = t.sp ∧
      u.byte t.sp.toNat = t.byte t.sp.toNat ∧ u.byte (t.sp.toNat + 1) = t.byte (t.sp.toNat + 1) :=
  ⟨by decide, by decide, by decide, _, _, rfl, rfl, rfl, rfl⟩

theorem witness_AluFlagClauses : (0 : RegIdx) ≠ 15 ∧ (14 : RegIdx) ≠ 15 ∧ (1 : RegIdx) ≠ 0 := by decide

theorem witness_RndDrawsBelowImmediate : (1 : Byte) ≠ 0 ∧ (255 : Byte) ≠ 0 := by decide

theorem witness_KeyTestsSkipOnKeyState : 15 < ((withV [(5, 16)] State.reset).getV 5).toNat ∧
    ((withV [(5, 15)] State.reset).getV 5).toNat = (15 : RegIdx).val ∧ (State.reset.getV 5).toNat = (0 : RegIdx).val := by
  decide

/-- No key; key 15, with no lower one; latched and held; latched and released. -/
theorem witness_GetkTransitions :
    (State.reset.waitingRelease = false ∧ ∀ k : RegIdx, State.reset.keys[k.val] = false) ∧
    (∃ s : State, s.waitingRelease = false ∧ s.keys[(15 : RegIdx).val] = true ∧ ∀ j : RegIdx, j < 15 → s.keys[j.val] = false) ∧
    (∃ s : State, s.waitingRelease = true ∧ (s.getV 3).toNat = (15 : RegIdx).val ∧ s.keys[(15 : RegIdx).val] = true) ∧
    (∃ s : State, s.waitingRelease = true ∧ (s.getV 3).toNat = (0 : RegIdx).val ∧ s.keys[(0 : RegIdx).val] = false) :=
  ⟨by decide, ⟨{ State.reset with keys := State.reset.keys.set 15 true }, by decide⟩,
   ⟨{ withV [(3, 15)] State.reset with keys := State.reset.keys.set 15 true, waitingRelease := true }, by decide⟩,
   ⟨{ State.reset with waitingRelease := true }, by decide⟩⟩

theorem witness_GetkWaitsWhileNoKeyPressed : (fetching 0x200 0xF30A).runsNext (.getk 3) ∧
    (fetching 0x200 0xF30A).waitingRelease = false ∧ ∀ k : RegIdx, (fetching 0x200 0xF30A).keys[k.val] = false :=
  ⟨⟨by decide, by decide, by decide⟩, by decide, by decide⟩

theorem witness_PressThenReleaseCompletesGetk : (fetching 0xE9E 0xFF0A).runsNext (.getk 15) ∧
    (fetching 0xE9E 0xFF0A).waitingRelease = false ∧ ∀ k : RegIdx, (fetching 0xE9E 0xFF0A).keys[k.val] = false :=
  ⟨⟨by decide, by decide, by decide⟩, by decide, by decide⟩

theorem witness_TimerAccess : (0 : Rat) ≤ State.reset.dt ∧ State.reset.dt ≤ 255 ∧
    (0 : Rat) ≤ ({ State.reset with dt := 255 } : State).dt ∧ ({ State.reset with dt := 255 } : State).dt ≤ 255 := by
  decide +kernel

/-- A negative time; a time that leaves a timer above zero, one that brings it to zero, one that is clamped. -/
theorem witness_TickCountsDownClamped : (-1 : Rat) < 0 ∧ (0 : Rat) ≤ 60 ∧ (0 : Rat) ≤ 1 / 4 ∧
    60 * (1 / 4) ≤ ({ State.reset with dt := 60 } : State).dt ∧ 60 * (1 / 4) ≤ ({ State.reset with st := 15 } : State).st ∧
    State.reset.dt < 60 * (1 / 4) ∧ State.reset.st < 60 * (1 / 4) := by decide +kernel

theorem witness_StepsNeverCountTimersDown : ∃ t, step (fetching 0x200 0xF015) = .next t := ⟨_, rfl⟩

theorem witness_IndexRegisterWrites : 15 < ((withV [(0, 16)] State.reset).getV 0).toNat ∧
    ((withV [(0, 15)] State.reset).getV 0).toNat ≤ 15 := by decide

theorem witness_BcdStoresThreeDigits : Memory.wf State.reset.mem = true ∧
    0xFFE ≤ ({ State.reset with i := 0xFFE } : State).i.toNat ∧ ({ State.reset with i := 0xFFD } : State).i.toNat < 0xFFE := by
  decide

theorem witness_RegisterDump : Memory.wf State.reset.mem = true ∧
    0xFFF < ({ State.reset with i := 0xFF1 } : State).i.toNat + (15 : RegIdx).val ∧
    ({ State.reset with i := 0xFF0 } : State).i.toNat + (15 : RegIdx).val ≤ 0xFFF := by decide

theorem witness_RegisterLoad : 0xFFF < ({ State.reset with i := 0xFFF } : State).i.toNat + (1 : RegIdx).val ∧
    ({ State.reset with i := 0xFFF } : State).i.toNat + (0 : RegIdx).val ≤ 0xFFF := by decide

theorem witness_DumpThenLoadRestores : Memory.wf State.reset.mem = true ∧
    State.reset.i.toNat + (3 : RegIdx).val ≤ 0xFFF ∧ (3 : RegIdx) ≤ 3 ∧ (0 : RegIdx) ≤ 3 ∧
    ∃ t u : State, exec (.storeRegs 3) State.reset = .next t ∧ u.mem = t.mem ∧ u.i = t.i :=
  ⟨by decide, by decide, by decide, by decide, _, _, rfl, rfl, rfl⟩

/-- A BCD at 0x200 that stores the low byte of the next instruction, whose high byte no step has stored. -/
def beforeBcd : State :=
  withBytes 0x202 [0x60, 0] { withV [(4, 157)] (fetching 0x200 0xF433) with i := 0x203 }

/-- The run of two states that begins with that BCD. -/
def bcdRun (j : Nat) : State :=
  if j = 0 then beforeBcd
  else { beforeBcd with pc := 0x202, mem := Memory.writeAll beforeBcd.mem 0x203 [1, 5, 7] }

theorem bcdRun_stores : (bcdRun 0).storesByte 0x203 1 :=
  .inr ⟨4, ⟨by decide, by decide, by decide⟩, by decide, .inl (by decide)⟩

theorem bcdRun_stores_above (b : Byte) : ¬ (bcdRun 0).storesByte 0x202 b := by
  rintro (⟨x, ⟨-, -, h⟩, -⟩ | ⟨x, ⟨-, -, h⟩, -, h' | h' | h'⟩)
  · rw [show decode ((bcdRun 0).word (bcdRun 0).pc.toNat) = .ok (.bcd 4) by decide] at h; cases h
  all_goals exact absurd h'.1 (by decide)

theorem witness_FetchSeesEarlierStores :
    ((∀ j ≤ 1, Inv (bcdRun j)) ∧ (∀ j < 1, step (bcdRun j) = .next (bcdRun (j + 1))) ∧ (bcdRun 1).halted = false ∧
      0x200 ≤ (bcdRun 1).pc.toNat ∧ (bcdRun 1).pc.toNat + 2 ≤ 0xEA0 ∧
      lastStored bcdRun 1 (bcdRun 1).pc.toNat 0x60 ∧ lastStored bcdRun 1 ((bcdRun 1).pc.toNat + 1) 1 ∧
      decode (wordOfBytes 0x60 1) = .ok (.ldImm 0 1)) ∧
    (let s := { withV [(0, 0x60), (1, 7)] (fetching 0x200 0xF155) with i := 0x202 }
     Memory.wf s.mem = true ∧ s.runsNext (.storeRegs 1) ∧ 1 ≤ (1 : RegIdx).val ∧ s.i.toNat = s.pc.toNat + 2 ∧
       s.pc.toNat + 4 ≤ 0xEA0 ∧ decode (wordOfBytes (s.getV 0) (s.getV 1)) = .ok (.ldImm 0 7)) := by
  refine ⟨⟨fun j hj => ?_, fun j hj => ?_, by decide, by decide, by decide, .inr ⟨fun j hj => ?_, by decide⟩,
    .inl ⟨0, by decide, bcdRun_stores, fun j h1 h2 => by omega⟩, by decide⟩,
    by decide, ⟨by decide, by decide, by decide⟩, by decide, by decide, by decide, by decide⟩
  · obtain rfl | rfl : j = 0 ∨ j = 1 := by omega
    · exact inv_of_running _ _ _ _ (by decide)
    · exact inv_of_running _ _ _ _ (by decide)
  · obtain rfl : j = 0 := by omega
    rfl
  · obtain rfl : j = 0 := by omega
    exact bcdRun_stores_above

theorem witness_ClsClearsFramebufferOnly : Memory.wf (fetching 0x200 0x00E0).mem = true := by decide

/-- A sprite of 15 rows, and one whose last byte is the last of memory, drawn on the last byte of the framebuffer. -/
theorem witness_DrwFrame :
    (Memory.wf State.reset.mem = true ∧ 15 ≤ 15 ∧ State.reset.drawInRange (State.reset.getV 0) (State.reset.getV 1) 15) ∧
    (let s := { withV [(0, 56), (1, 31)] State.reset with i := 0xFFF }
     Memory.wf s.mem = true ∧ 1 ≤ 15 ∧ s.drawInRange (s.getV 0) (s.getV 1) 1) :=
  ⟨⟨by decide, by decide, drawInRange_of_rows (by decide)⟩, ⟨by decide, by decide, drawInRange_of_rows (by decide)⟩⟩

theorem witness_DrwXorsSpritePixels :
    let s := withV [(0, 60), (1, 31)] State.reset
    Memory.wf State.reset.mem = true ∧ 15 ≤ 15 ∧ State.reset.drawInRange (State.reset.getV 0) (State.reset.getV 1) 15 ∧
    State.reset.spriteApart (State.reset.getV 0) (State.reset.getV 1) 15 ∧ ¬ s.drawInRange (s.getV 0) (s.getV 1) 1 := by
  refine ⟨by decide, by decide, drawInRange_of_rows (by decide), spriteApart_of_below _ _ (by decide), fun h => ?_⟩
  exact absurd (h 0x1000 (.inr ⟨0, by decide, .inr (by decide)⟩)) (by decide)

/-- Out of range by the second byte of a row, and by the sprite itself. -/
theorem witness_DrwBeyondMemoryFaults :
    let s := withV [(0, 57), (1, 31)] State.reset
    let u := { State.reset with i := 0xFFE }
    ¬ s.drawInRange (s.getV 0) (s.getV 1) 1 ∧ (s.getV 1).toNat % 32 = 31 ∧ 57 ≤ (s.getV 0).toNat ∧
      (s.drawAccesses (s.getV 0) (s.getV 1) 1).find? (fun a => decide (0x1000 ≤ a)) = some 0x1000 ∧
      (u.drawAccesses (u.getV 0) (u.getV 1) 3).find? (fun a => decide (0x1000 ≤ a)) = some 0x1000 ∧
      ¬ u.drawInRange (u.getV 0) (u.getV 1) 3 := by
  refine ⟨fun h => ?_, by decide, by decide, by decide, by decide, fun h => ?_⟩
  · exact absurd (h 0x1000 (.inr ⟨0, by decide, .inr (by decide)⟩)) (by decide)
  · exact absurd (h 0x1000 (.inl ⟨2, by decide, by decide⟩)) (by decide)

/-- Two draws of the glyph of 0 at (0, 0). -/
theorem witness_DrawingTwiceRestoresDisplay : Memory.wf State.reset.mem = true ∧ 5 ≤ 15 ∧
    State.reset.drawInRange (State.reset.getV 0) (State.reset.getV 1) 5 ∧
    State.reset.spriteApart (State.reset.getV 0) (State.reset.getV 1) 5 ∧
    (∃ t, exec (.drw 0 1 5) State.reset = .next t ∧ t.getV 0 = State.reset.getV 0 ∧ t.getV 1 = State.reset.getV 1) ∧
    ∀ k < 5, ∀ j < 8, State.reset.spritePixel k j = true →
      State.reset.fbPixel (landing (State.reset.getV 0) (State.reset.getV 1) k j) = false :=
  ⟨by decide, by decide, drawInRange_of_rows (by decide), spriteApart_of_below _ _ (by decide), ⟨_, rfl, rfl, rfl⟩,
   by decide⟩

/-- A first draw that turns off all the pixels of its sprite (the top row of the glyph of 0), so that the second one turns
them on again and leaves `VF` 0 (44_display.md R195; log 22). -/
theorem witness_DrawingTwiceRestoresDisplay_second_flag_0 :
    let s := withBytes 0xF00 [0x0F] State.reset
    Memory.wf s.mem = true ∧ 1 ≤ 15 ∧ s.drawInRange (s.getV 0) (s.getV 1) 1 ∧ s.spriteApart (s.getV 0) (s.getV 1) 1 ∧
    ∃ t, exec (.drw 0 1 1) s = .next t ∧ t.getV 0 = s.getV 0 ∧ t.getV 1 = s.getV 1 ∧ t.getV 15 = 1 ∧
      ∃ u, exec (.drw 0 1 1) t = .next u ∧ u.getV 15 = 0 ∧ u.mem = s.mem :=
  ⟨by decide, by decide, drawInRange_of_rows (by decide), spriteApart_of_below _ _ (by decide),
   _, rfl, rfl, rfl, by decide, _, rfl, by decide, by decide⟩

/-- A sprite of two rows in the framebuffer, the second of which the first one writes (DR-17). -/
theorem witness_DrwRowsSeeEarlierRows :
    let s := withBytes 0xF07 [0x80] { withV [(1, 1)] State.reset with i := 0xF07 }
    Memory.wf s.mem = true ∧ 2 ≤ 15 ∧ s.drawInRange (s.getV 0) (s.getV 1) 2 ∧ ¬ s.spriteApart (s.getV 0) (s.getV 1) 2 := by
  refine ⟨by decide, by decide, drawInRange_of_rows (by decide), fun h => ?_⟩
  exact h 0xF08 ⟨1, by decide, by decide⟩ ⟨0, by decide, .inl (by decide)⟩

/-- The default font, and one at the other end of its range. -/
theorem witness_EqualReadsEqualMemories : Memory.wf [(0x300, 1)] = true ∧ Config.font.wf = true ∧ topFont.wf = true ∧
    15 < 16 ∧ 4 < 5 := by decide

theorem witness_StepKeepsInv : Inv (fetching 0x200 0xF00A) ∧
    ∃ t, step (fetching 0x200 0xF00A) = .next t ∧ t.blocked = true :=
  ⟨inv_fetching _ _ (by decide), _, rfl, rfl⟩

theorem witness_HostOperationsKeepInv : Config.params.font.wf = true ∧ Inv (fetching 0x200 0xF00A) ∧
    (∃ t, performAt Config.params .halt (fetching 0x200 0xF00A) = .next t) ∧
    ∃ t, performAt Config.params .step (fetching 0x200 0xF00A) = .next t :=
  ⟨by decide, inv_fetching _ _ (by decide), ⟨_, rfl⟩, _, rfl⟩

/-- The state after a reset with the two bytes of a GETK V0 as the image. -/
def loadedGetk : State := { State.reset with mem := Memory.loaded Config.font [0xF0, 0x0A] }

theorem loadedGetk_word : loadedGetk.word loadedGetk.pc.toNat =
    wordOfBytes (Memory.read (Memory.loaded Config.font [0xF0, 0x0A]) (Config.progBase + 0))
      (Memory.read (Memory.loaded Config.font [0xF0, 0x0A]) (Config.progBase + 1)) := rfl

theorem loadedGetk_decodes : decode (loadedGetk.word loadedGetk.pc.toNat) = .ok (.getk 0) := by
  have hl : ([0xF0, 0x0A] : List Byte).length ≤ 3232 := by decide
  rw [loadedGetk_word, Memory.read_loaded_image Config.font_wf hl (k := 0) (by decide),
    Memory.read_loaded_image Config.font_wf hl (k := 1) (by decide)]
  decide

/-- A reachable state that waits at a GETK. -/
theorem witness_ReachableStatesWaitOnlyAtGetk :
    Config.params.font.wf = true ∧ ∃ s, Reachable Config.params s ∧ s.blocked = true ∧ s.halted = false := by
  have hr : performAt Config.params (.reset [0xF0, 0x0A]) (State.resetAt Config.params.font) = .next loadedGetk :=
    resetWithAt_ok (by decide)
  have hs : stepBy (execAt Config.font) loadedGetk = .next (getkIdle 0 loadedGetk.advancePc) := by
    rw [stepBy_run rfl (by decide) loadedGetk_decodes]
    exact congrArg Host.Outcome.next (if_neg (by decide))
  refine ⟨by decide, _, .next _ _ .step (.next _ _ _ .start hr) hs, ?_, ?_⟩ <;>
    (unfold getkIdle; split <;> rfl)

theorem witness_OnlyListedInstructionsWriteV :
    ∃ t, step (fetching 0x200 0x6005) = .next t ∧ t.getV 0 ≠ (fetching 0x200 0x6005).getV 0 := ⟨_, rfl, by decide⟩

theorem witness_OnlyThreeInstructionsWriteI :
    ∃ t, step (fetching 0x200 0xA2F0) = .next t ∧ t.i ≠ (fetching 0x200 0xA2F0).i := ⟨_, rfl, by decide⟩

theorem witness_OnlyCallAndRetMoveSp :
    ∃ t, step (fetching 0x200 0x2300) = .next t ∧ t.sp ≠ (fetching 0x200 0x2300).sp := ⟨_, rfl, by decide⟩

theorem witness_OnlyStoresChangeMemory : Memory.wf (fetching 0x200 0x2300).mem = true ∧
    ∃ t, step (fetching 0x200 0x2300) = .next t ∧ t.byte 0xEFE ≠ (fetching 0x200 0x2300).byte 0xEFE :=
  ⟨by decide, _, rfl, by decide⟩

theorem witness_OnlyClsAndDrwMarkDisplay :
    ∃ t, step (fetching 0x200 0xD010) = .next t ∧ t.displayChanged ≠ (fetching 0x200 0xD010).displayChanged :=
  ⟨_, rfl, by decide⟩

theorem witness_StepsLeaveKeypadAlone :
    ∃ t, step (fetching 0x200 0xF00A) = .next t ∧ t.blocked ≠ (fetching 0x200 0xF00A).blocked := ⟨_, rfl, by decide⟩

theorem witness_ResetLoadsImage : 3232 < (List.replicate 3233 (0 : Byte)).length ∧ Config.font.wf = true ∧
    (List.replicate 3232 (0 : Byte)).length ≤ 3232 ∧ 0 < ([0x60] : List Byte).length := by
  rw [List.length_replicate, List.length_replicate]; decide

theorem witness_SetKeyWritesOneKey : 15 < 16 ∧ (0 : RegIdx) ≠ 15 := by decide

theorem witness_StatusWordLayout : State.reset.fault = none ∧
    (State.reset.faulted (.unknownOpcode 0) (some 0)).fault = some ⟨.unknownOpcode 0, 0x200, some 0⟩ := by decide

/-- With the font at the top of its range; an instruction that is not LD F; a state that runs none. -/
theorem witness_FontIsAParameter : topFont.wf = true ∧ ((withV [(0, 15)] State.reset).getV 0).toNat ≤ 15 ∧
    15 < ((withV [(0, 16)] State.reset).getV 0).toNat ∧ (∀ x, Instr.addI 0 ≠ .ldF x) ∧
    (fetching 0x200 0xF029).runsNext (.ldF 0) ∧ ∀ i, ¬ State.reset.runsNext i := by
  refine ⟨by decide, by decide, by decide, nofun, ⟨by decide, by decide, by decide⟩, fun i h => ?_⟩
  obtain ⟨-, -, hd⟩ := h
  rw [show decode (State.reset.word State.reset.pc.toNat) = .error (.unknownOpcode 0) by decide] at hd
  cases hd

theorem witness_FramebufferReadPort : 255 < 256 ∧ 63 < 64 ∧ 31 < 32 := by decide

end Sys2Proof.Tests
end

section
/-! The state as a whole (10_state.md): what every step keeps, who writes what, and the canonical form of memory.

Every proof about a step starts from `stepAt_footprint` and takes the fields from `footprint_frame`, so the instructions
are split once for all fields but the registers. -/

namespace Sys2Proof.Machine

/-! ### What a step does to the state -/

/-- `step` is the step with the default font (log 10). -/
theorem stepAt_default (s : State) : stepAt Config.font s = step s := by
  have e : execAt Config.font = exec := funext fun i => funext (execAt_default i)
  rw [stepAt, e, step]

/-- A step, with any font: nothing, a fault, or the footprint of the instruction it runs. -/
theorem stepAt_footprint {font : Font} {s t : State} (h : stepAt font s = .next t) :
    t = s ∨ (∃ f op, t = takeFault f op s) ∨ ∃ i, s.runsNext i ∧ Footprint s t i := by
  obtain ⟨-, e⟩ | ⟨-, -, e⟩ | ⟨-, -, -, e⟩ | ⟨hh, hf, i, hd, hx⟩ := stepBy_cases h
  · exact .inl e
  · exact .inr (.inl ⟨_, _, e⟩)
  · exact .inr (.inl ⟨_, _, e⟩)
  · obtain hp | ⟨f, e⟩ := execAt_cases hx
    · exact .inr (.inr ⟨i, ⟨hh, hf, hd⟩, hp⟩)
    · exact .inr (.inl ⟨_, _, e⟩)

/-- Whatever a fault leaves alone, only the footprint of an instruction can change. -/
theorem step_footprint_of_changed {α : Type} {s t : State} (p : State → α) (h : step s = .next t)
    (hp : ∀ f op, p (takeFault f op s) = p s) (hne : p t ≠ p s) : ∃ i, s.runsNext i ∧ Footprint s t i := by
  rw [← stepAt_default] at h
  obtain rfl | ⟨f, op, rfl⟩ | hi := stepAt_footprint h
  · exact absurd rfl hne
  · exact absurd (hp f op) hne
  · exact hi

/-- What the footprint of `i` may do to each field but the registers, `PC` and `draws`. A field that an instruction does
not name is as before, which is the default of each clause. -/
structure Frame (s t : State) (i : Instr) : Prop where
  mem_wf : Memory.wf s.mem = true → Memory.wf t.mem = true := by exact id
  i_eq : t.i = s.i ∨ (∃ nnn, i = .ldI nnn) ∨ ∃ x, i = .addI x ∨ i = .ldF x := by exact .inl rfl
  sp_eq : t.sp = s.sp ∨ (∃ nnn, i = .call nnn ∧ t.sp = s.sp - 2 ∧ 0xEA0 < s.sp.toNat) ∨
    ∃ g, i = .ret g ∧ t.sp = s.sp + 2 ∧ s.sp.toNat < 0xF00 := by exact .inl rfl
  dt_eq : t.dt = s.dt ∨ ∃ x, i = .ldDtVx x ∧ t.dt = timerValue (s.getV x) := by exact .inl rfl
  st_eq : t.st = s.st ∨ ∃ x, i = .ldStVx x ∧ t.st = timerValue (s.getV x) := by exact .inl rfl
  display_eq : t.displayChanged = s.displayChanged ∨
    t.displayChanged = true ∧ ((∃ g, i = .cls g) ∨ ∃ x y n, i = .drw x y n) := by exact .inl rfl
  wait_eq : (t.blocked = s.blocked ∧ t.waitingRelease = s.waitingRelease) ∨ ∃ x, i = .getk x := by
    exact .inl ⟨rfl, rfl⟩

theorem footprint_frame {s t : State} {i : Instr} (h : Footprint s t i) : Frame s t i := by
  cases i
  case jp | jpV0 | seImm | sneImm | seReg | sneReg | keyd | keyu => rw [show t = _ from h]; exact {}
  case ldImm | addImm | ldReg | or | and | xor | ldVxDt => obtain ⟨b, rfl⟩ := h; exact {}
  case add | sub | subn | shr | shl => obtain ⟨b, c, rfl | rfl⟩ := h <;> exact {}
  case rnd => obtain ⟨b, -, rfl⟩ := h; exact {}
  case loadRegs => obtain ⟨v, rfl, -⟩ := h; exact {}
  case bcd | storeRegs => obtain ⟨m, rfl, hm⟩ := h; exact { mem_wf := fun hw => (hm hw).1 }
  case cls g =>
    obtain ⟨m, rfl, hm⟩ := h
    exact { mem_wf := fun hw => (hm hw).1, display_eq := .inr ⟨rfl, .inl ⟨g, rfl⟩⟩ }
  case drw x y n =>
    obtain ⟨m, c, rfl, hm⟩ := h
    exact { mem_wf := fun hw => (hm hw).1, display_eq := .inr ⟨rfl, .inr ⟨x, y, n, rfl⟩⟩ }
  case call nnn =>
    obtain ⟨m, e, hsp, hm⟩ := h
    rw [e]
    exact { mem_wf := fun hw => (hm hw).1, sp_eq := .inr (.inl ⟨nnn, rfl, rfl, hsp⟩) }
  case ret g =>
    obtain ⟨e, hsp⟩ := h
    rw [e]
    exact { sp_eq := .inr (.inr ⟨g, rfl, rfl, hsp⟩) }
  case getk x =>
    obtain ⟨b, bl, wr, e, -⟩ := h
    rw [e]
    exact { wait_eq := .inr ⟨x, rfl⟩ }
  case ldI nnn => rw [show t = _ from h]; exact { i_eq := .inr (.inl ⟨nnn, rfl⟩) }
  case addI x => rw [show t = _ from h]; exact { i_eq := .inr (.inr ⟨x, .inl rfl⟩) }
  case ldF x => rw [show t = _ from h]; exact { i_eq := .inr (.inr ⟨x, .inr rfl⟩) }
  case ldDtVx x => rw [show t = _ from h]; exact { dt_eq := .inr ⟨x, rfl, rfl⟩ }
  case ldStVx x => rw [show t = _ from h]; exact { st_eq := .inr ⟨x, rfl, rfl⟩ }

/-! ### The invariant -/

theorem timerValue_range (b : Byte) : 0 ≤ timerValue b ∧ timerValue b ≤ 255 := by
  have hb : b.toNat ≤ 255 := Nat.le_of_lt_succ b.isLt
  exact ⟨Nat.cast_nonneg _, by rw [timerValue]; exact_mod_cast hb⟩

/-- Where the core stands and what it fetches depend on memory and `PC` alone. -/
theorem atGetk_congr {s t : State} {x : RegIdx} (hm : t.mem = s.mem) (hpc : t.pc = s.pc) (h : s.atGetk x) :
    t.atGetk x := by
  simpa only [State.atGetk, State.fetchable, State.word, State.byte, hm, hpc] using h

/-- A fault changes only `halted` and the record, and a halted core may hold a record. -/
theorem inv_takeFault {s : State} (h : Inv s) (f : Fault) (op : Option Word) : Inv (takeFault f op s) where
  memory_canonical := h.memory_canonical
  sp_in_region := h.sp_in_region
  sp_even := h.sp_even
  dt_range := h.dt_range
  st_range := h.st_range
  wait_flags := h.wait_flags
  blocked_at_getk := h.blocked_at_getk
  fault_halts := fun _ => rfl

/-- `SP` moves by 2, and only away from the end of its region that it has reached. -/
theorem footprint_keeps_sp {s t : State} {i : Instr} (h : Inv s) (hp : Footprint s t i) :
    (0xEA0 ≤ t.sp.toNat ∧ t.sp.toNat ≤ 0xF00) ∧ t.sp.toNat % 2 = 0 := by
  have hr := h.sp_in_region
  have he := h.sp_even
  obtain e | ⟨-, -, e, hlt⟩ | ⟨-, -, e, hlt⟩ := (footprint_frame hp).sp_eq
  · rw [e]; exact ⟨hr, he⟩
  · rw [e, BitVec.toNat_sub]; simp only [BitVec.reduceToNat]; omega
  · rw [e, BitVec.toNat_add]; simp only [BitVec.reduceToNat]; omega

/-- Only GETK writes the wait flags, and every other instruction finds them false: a blocked core runs its GETK. -/
theorem footprint_keeps_waiting {s t : State} {i : Instr} (h : Inv s) (hi : s.runsNext i) (hp : Footprint s t i) :
    (t.waitingRelease = true → t.blocked = true) ∧
    (t.blocked = true → ∃ x, t.atGetk x ∧ (t.waitingRelease = true → (t.getV x).toNat ≤ 15)) := by
  obtain ⟨-, hf, hd⟩ := hi
  by_cases hg : ∃ x, i = .getk x
  · obtain ⟨x, rfl⟩ := hg
    obtain ⟨b, bl, wr, e, hbl, hwr⟩ := hp
    have hb : t.blocked = bl := by rw [e]
    have hw : t.waitingRelease = wr := by rw [e]
    have hm : t.mem = s.mem := by rw [e]
    have hv : t.getV x = b := by rw [e]; exact Vector.getElem_set_self ..
    rw [hb, hw]
    constructor
    · intro h1
      obtain hbt | rfl := hwr h1
      · exact hbt
      · exact hb ▸ h.wait_flags (hw.trans h1)
    · intro h1
      obtain rfl | ⟨hpc, -, hk⟩ := hbl h1
      · exact hw ▸ h.blocked_at_getk (hb.trans h1)
      · exact ⟨x, atGetk_congr hm hpc ⟨hf, hd⟩, hv ▸ hk⟩
  · obtain ⟨eb, ew⟩ := (footprint_frame hp).wait_eq.resolve_right hg
    have hb : s.blocked = false := by
      cases hs : s.blocked with
      | false => rfl
      | true =>
        obtain ⟨x, ⟨-, hx⟩, -⟩ := h.blocked_at_getk hs
        rw [hx] at hd
        cases hd
        exact absurd ⟨x, rfl⟩ hg
    rw [eb, ew, hb]
    exact ⟨fun h1 => hb ▸ h.wait_flags h1, nofun⟩

/-- The footprint of the instruction that runs keeps the invariant. -/
theorem inv_footprint {s t : State} {i : Instr} (h : Inv s) (hi : s.runsNext i) (hp : Footprint s t i) : Inv t := by
  have hfr := footprint_frame hp
  obtain ⟨hsp, heven⟩ := footprint_keeps_sp h hp
  obtain ⟨hflags, hgetk⟩ := footprint_keeps_waiting h hi hp
  obtain ⟨ehalt, efault, -⟩ := footprint_halted_fault_keys hp
  refine ⟨hfr.mem_wf h.memory_canonical, hsp, heven, ?_, ?_, hflags, hgetk, ?_⟩
  · obtain e | ⟨x, -, e⟩ := hfr.dt_eq
    · rw [e]; exact h.dt_range
    · rw [e]; exact timerValue_range _
  · obtain e | ⟨x, -, e⟩ := hfr.st_eq
    · rw [e]; exact h.st_range
    · rw [e]; exact timerValue_range _
  · rw [ehalt, efault]; exact h.fault_halts

/-- A step with any font keeps the invariant. -/
theorem stepAt_keeps_inv {font : Font} {s t : State} (h : Inv s) (hs : stepAt font s = .next t) : Inv t := by
  obtain rfl | ⟨f, op, rfl⟩ | ⟨i, hi, hp⟩ := stepAt_footprint hs
  · exact h
  · exact inv_takeFault h f op
  · exact inv_footprint h hi hp

/-- Settles O45: a step does nothing, takes a fault, or leaves the footprint of its instruction; each keeps the
invariant. -/
theorem stepKeepsInv : Obligations.StepKeepsInv :=
  fun s _ h hs => stepAt_keeps_inv h ((stepAt_default s).trans hs)

/-- Settles O44: the reset values of R48 meet each clause. -/
theorem resetSatisfiesInv : Obligations.ResetSatisfiesInv where
  memory_canonical := rfl
  sp_in_region := by decide
  sp_even := by decide
  dt_range := ⟨le_refl 0, by norm_num [State.reset]⟩
  st_range := ⟨le_refl 0, by norm_num [State.reset]⟩
  wait_flags := nofun
  blocked_at_getk := nofun
  fault_halts := fun h => absurd rfl h

/-! ### Who writes what -/

/-- Settles O29: the two loads are the only instructions whose footprint names a timer. -/
theorem stepsNeverCountTimersDown : Obligations.StepsNeverCountTimersDown := by
  intro s t h
  constructor
  · by_cases hne : t.dt = s.dt
    · exact .inl hne
    · obtain ⟨i, hi, hp⟩ := step_footprint_of_changed State.dt h (fun _ _ => rfl) hne
      obtain ⟨x, rfl, e⟩ := (footprint_frame hp).dt_eq.resolve_left hne
      exact .inr ⟨x, hi, e⟩
  · by_cases hne : t.st = s.st
    · exact .inl hne
    · obtain ⟨i, hi, hp⟩ := step_footprint_of_changed State.st h (fun _ _ => rfl) hne
      obtain ⟨x, rfl, e⟩ := (footprint_frame hp).st_eq.resolve_left hne
      exact .inr ⟨x, hi, e⟩

/-- Settles O49: no other footprint names `I`. -/
theorem onlyThreeInstructionsWriteI : Obligations.OnlyThreeInstructionsWriteI := by
  intro s t h hne
  obtain ⟨i, hi, hp⟩ := step_footprint_of_changed State.i h (fun _ _ => rfl) hne
  exact ⟨i, hi, (footprint_frame hp).i_eq.resolve_left hne⟩

/-- Settles O50: no other footprint names `SP`. -/
theorem onlyCallAndRetMoveSp : Obligations.OnlyCallAndRetMoveSp := by
  intro s t h hne
  obtain ⟨i, hi, hp⟩ := step_footprint_of_changed State.sp h (fun _ _ => rfl) hne
  obtain ⟨nnn, rfl, e, -⟩ | ⟨g, rfl, e, -⟩ := (footprint_frame hp).sp_eq.resolve_left hne
  · exact .inl ⟨nnn, hi, e⟩
  · exact .inr ⟨g, hi, e⟩

/-- Settles O52: a footprint that names `display_changed` sets it. -/
theorem onlyClsAndDrwMarkDisplay : Obligations.OnlyClsAndDrwMarkDisplay := by
  intro s t h
  by_cases he : t.displayChanged = s.displayChanged
  · exact ⟨he.trans, absurd he⟩
  · obtain ⟨i, hi, hp⟩ := step_footprint_of_changed State.displayChanged h (fun _ _ => rfl) he
    obtain ⟨hset, hw⟩ := (footprint_frame hp).display_eq.resolve_left he
    refine ⟨fun _ => hset, fun _ => ?_⟩
    obtain ⟨g, rfl⟩ | ⟨x, y, n, rfl⟩ := hw
    · exact .inl ⟨g, hi⟩
    · exact .inr ⟨x, y, n, hi⟩

/-- Settles O53: no footprint names the keypad, and only GETK's names the two flags. -/
theorem stepsLeaveKeypadAlone : Obligations.StepsLeaveKeypadAlone := by
  intro s t h
  constructor
  · by_contra hne
    obtain ⟨i, -, hp⟩ := step_footprint_of_changed State.keys h (fun _ _ => rfl) hne
    obtain ⟨-, -, e⟩ := footprint_halted_fault_keys hp
    exact hne e
  · intro hne
    have hpair : (t.blocked, t.waitingRelease) ≠ (s.blocked, s.waitingRelease) := by
      rwa [Ne, Prod.mk.injEq, not_and_or]
    obtain ⟨i, hi, hp⟩ :=
      step_footprint_of_changed (fun u => (u.blocked, u.waitingRelease)) h (fun _ _ => rfl) hpair
    obtain ⟨x, rfl⟩ := (footprint_frame hp).wait_eq.resolve_left fun ⟨eb, ew⟩ => hpair (Prod.ext eb ew)
    exact ⟨x, hi⟩

/-! ### Who writes a register -/

/-- The instruction names `V[r]` as a destination: 10_state.md R33, and R34 for `VF`. -/
def WritesV (r : RegIdx) : Instr → Prop
  | .ldImm x _ | .addImm x _ | .rnd x _ | .ldReg x _ | .or x _ | .and x _ | .xor x _ | .ldVxDt x | .getk x => r = x
  | .add x _ | .sub x _ | .subn x _ | .shr x _ | .shl x _ => r = x ∨ r = 15
  | .drw _ _ _ => r = 15
  | .loadRegs x => r ≤ x
  | _ => False

/-- Writing one register changes that register alone. -/
theorem eq_of_getElem_set_ne {v : Vector Byte 16} {x r : RegIdx} {b : Byte}
    (h : (v.set x.val b)[r.val] ≠ v[r.val]) : r = x := by
  by_contra hne
  exact h (Vector.getElem_set_ne _ _ fun e => hne (Fin.ext e.symm))

/-- Writing two registers, in either order, changes those two alone. -/
theorem eq_or_eq_of_getElem_set_set_ne {v : Vector Byte 16} {x y r : RegIdx} {b c : Byte}
    (h : ((v.set x.val b).set y.val c)[r.val] ≠ v[r.val]) : r = x ∨ r = y := by
  by_cases hy : ((v.set x.val b).set y.val c)[r.val] = (v.set x.val b)[r.val]
  · exact .inl (eq_of_getElem_set_ne (hy ▸ h))
  · exact .inr (eq_of_getElem_set_ne hy)

/-- A footprint changes only a register that the instruction names. -/
theorem footprint_writesV {s t : State} {i : Instr} {r : RegIdx} (h : Footprint s t i) (hne : t.getV r ≠ s.getV r) :
    WritesV r i := by
  cases i
  case ldImm | addImm | ldReg | or | and | xor | ldVxDt => obtain ⟨b, rfl⟩ := h; exact eq_of_getElem_set_ne hne
  case rnd => obtain ⟨b, -, rfl⟩ := h; exact eq_of_getElem_set_ne hne
  case getk => obtain ⟨b, bl, wr, e, -⟩ := h; rw [e] at hne; exact eq_of_getElem_set_ne hne
  case add | sub | subn | shr | shl =>
    obtain ⟨b, c, rfl | rfl⟩ := h
    · exact eq_or_eq_of_getElem_set_set_ne (y := 15) hne
    · exact (eq_or_eq_of_getElem_set_set_ne (x := 15) hne).symm
  case drw => obtain ⟨m, c, rfl, -⟩ := h; exact eq_of_getElem_set_ne (x := 15) hne
  case loadRegs x =>
    obtain ⟨v, rfl, hv⟩ := h
    exact not_lt.1 fun hlt => hne (hv r hlt)
  case cls | bcd | storeRegs => obtain ⟨m, rfl, -⟩ := h; exact hne rfl
  case call => obtain ⟨m, e, -⟩ := h; rw [e] at hne; exact hne rfl
  case ret => obtain ⟨e, -⟩ := h; rw [e] at hne; exact hne rfl
  all_goals rw [show t = _ from h] at hne; exact hne rfl

/-- Settles O48: the instructions that name `V[r]` are those of R33 and R34. -/
theorem onlyListedInstructionsWriteV : Obligations.OnlyListedInstructionsWriteV := by
  intro s t r h hne
  obtain ⟨i, hi, hp⟩ := step_footprint_of_changed (fun u => u.getV r) h (fun _ _ => rfl) hne
  have hw := footprint_writesV hp hne
  refine ⟨i, hi, ?_⟩
  cases i with
  | ldImm x nn | addImm x nn | rnd x nn => cases hw; exact .inl ⟨nn, by simp⟩
  | ldReg x y | or x y | and x y | xor x y => cases hw; exact .inr (.inl ⟨y, by simp⟩)
  | add x y | sub x y | subn x y =>
    obtain rfl | rfl := hw
    · exact .inr (.inl ⟨y, by simp⟩)
    · exact .inr (.inr (.inr (.inr (.inr (.inr ⟨rfl, x, y, 0, 0, by simp⟩)))))
  | shr x l | shl x l =>
    obtain rfl | rfl := hw
    · exact .inr (.inr (.inl ⟨l, by simp⟩))
    · exact .inr (.inr (.inr (.inr (.inr (.inr ⟨rfl, x, 0, l, 0, by simp⟩)))))
  | ldVxDt x => cases hw; exact .inr (.inr (.inr (.inl rfl)))
  | getk x => cases hw; exact .inr (.inr (.inr (.inr (.inl rfl))))
  | loadRegs x => exact .inr (.inr (.inr (.inr (.inr (.inl ⟨x, hw, rfl⟩)))))
  | drw x y n => cases hw; exact .inr (.inr (.inr (.inr (.inr (.inr ⟨rfl, x, y, 0, n, by simp⟩)))))
  | _ => exact hw.elim

/-! ### The canonical form of memory -/

theorem Memory.wfFrom_cons {lo k : Nat} {b : Byte} {m : Memory} :
    Memory.wfFrom lo ((k, b) :: m) = true ↔
      lo ≤ k ∧ k < Config.memSize ∧ b ≠ Memory.unlisted k ∧ Memory.wfFrom (k + 1) m = true := by
  simp only [Memory.wfFrom, Bool.and_eq_true, decide_eq_true_eq, and_assoc]

/-- The first listed address reads as what is listed there. -/
theorem Memory.read_head (k : Nat) (b : Byte) (m : Memory) : Memory.read ((k, b) :: m) k = b := if_pos rfl

/-- The first listed address is the lowest that reads otherwise than unlisted. -/
theorem Memory.head_le_of_reads {lo lo' k k' : Nat} {b b' : Byte} {m m' : Memory}
    (hw : Memory.wfFrom lo ((k, b) :: m) = true) (hw' : Memory.wfFrom lo' ((k', b') :: m') = true)
    (h : Memory.read ((k, b) :: m) k = Memory.read ((k', b') :: m') k) : k' ≤ k := by
  obtain ⟨-, -, hb, -⟩ := Memory.wfFrom_cons.1 hw
  obtain ⟨-, hk', hb', ht'⟩ := Memory.wfFrom_cons.1 hw'
  by_contra hlt
  have hfrom : Memory.wfFrom k' ((k', b') :: m') = true := Memory.wfFrom_cons.2 ⟨le_refl k', hk', hb', ht'⟩
  rw [Memory.read_head, Memory.read_below hfrom (by omega)] at h
  exact hb h

/-- Canonical memories that read alike are equal. -/
theorem Memory.eq_of_reads {lo : Nat} {m m' : Memory} (hw : Memory.wfFrom lo m = true)
    (hw' : Memory.wfFrom lo m' = true) (h : ∀ a, Memory.read m a = Memory.read m' a) : m = m' := by
  induction m generalizing lo m' with
  | nil =>
    cases m' with
    | nil => rfl
    | cons e' m' =>
      obtain ⟨k', b'⟩ := e'
      obtain ⟨-, -, hb', -⟩ := Memory.wfFrom_cons.1 hw'
      exact absurd (Memory.read_head k' b' m' ▸ h k').symm hb'
  | cons e m ih =>
    obtain ⟨k, b⟩ := e
    obtain ⟨-, -, hb, ht⟩ := Memory.wfFrom_cons.1 hw
    cases m' with
    | nil => exact absurd (Memory.read_head k b m ▸ h k) hb
    | cons e' m' =>
      obtain ⟨k', b'⟩ := e'
      obtain ⟨-, -, -, ht'⟩ := Memory.wfFrom_cons.1 hw'
      obtain rfl : k = k' :=
        Nat.le_antisymm (Memory.head_le_of_reads hw' hw (h k').symm) (Memory.head_le_of_reads hw hw' (h k))
      have hbb : b = b' := by simpa only [Memory.read_head] using h k
      have htail : m = m' := ih ht ht' fun a => by
        by_cases ha : a = k
        · rw [Memory.read_below ht (by omega), Memory.read_below ht' (by omega)]
        · simpa only [Memory.read, if_neg (Ne.symm ha)] using h a
      rw [hbb, htail]

/-- With the default font, memory after a reset is what an unlisted address reads as. -/
theorem resetAt_default_byte (a : Nat) : (State.resetAt Config.font).byte a = Memory.unlisted a := by
  rw [resetAt_byte Config.font_wf, if_pos (Nat.zero_le a), Memory.unlisted]
  split
  · rfl
  · rename_i h
    have hge : 80 ≤ a := not_lt.1 fun hlt => h ⟨Nat.zero_le a, hlt⟩
    exact List.getD_eq_default _ _ (Config.fontData_length.trans_le hge)

theorem wf_resetAt {font : Font} (hf : font.wf = true) : Memory.wf (State.resetAt font).mem = true :=
  Memory.wf_loaded hf (Nat.zero_le 3232)

/-- The reset state is the one with the default font. -/
theorem resetAt_default : State.resetAt Config.font = State.reset := by
  have hm : Memory.loaded Config.font [] = [] :=
    Memory.eq_of_reads (lo := 0) (wf_resetAt Config.font_wf) rfl resetAt_default_byte
  rw [State.resetAt, hm]
  rfl

/-- Settles O43: that reads determine a canonical memory also gives the default font's reset memory, the empty list. -/
theorem equalReadsEqualMemories : Obligations.EqualReadsEqualMemories := by
  refine ⟨fun m m' => Memory.eq_of_reads, fun font hf => ⟨wf_resetAt hf, fun a ha => ?_, fun d k hd hk => ?_⟩,
    resetAt_default⟩
  · obtain ⟨-, hl⟩ := (Font.wf_iff font).1 hf
    rw [resetAt_byte hf]
    split
    · exact List.getD_eq_default _ _ (by omega)
    · rfl
  · obtain ⟨-, hl⟩ := (Font.wf_iff font).1 hf
    have hlt : 5 * d + k < font.data.length := by omega
    have hsub : font.base + 5 * d + k - font.base = 5 * d + k := by omega
    rw [resetAt_byte hf, if_pos (by omega), hsub, List.getD_eq_getElem _ _ hlt, List.getElem?_eq_getElem hlt]

/-! ### The font as a parameter -/

theorem takeFault_eq_faulted (f : Fault) (op : Option Word) (s : State) : takeFault f op s = s.faulted f op := rfl

/-- A state that runs no instruction steps alike whatever the instructions mean. -/
theorem stepBy_of_not_runsNext {run run' : Instr → State → Host.Outcome State Fault Refusal} {s : State}
    (h : ∀ i, ¬ s.runsNext i) : stepBy run s = stepBy run' s := by
  cases hh : s.halted with
  | true => rw [stepBy_halted hh, stepBy_halted hh]
  | false =>
    cases hf : s.fetchable with
    | false => rw [stepBy_fetch_fault hh hf, stepBy_fetch_fault hh hf]
    | true =>
      cases hd : decode (s.word s.pc.toNat) with
      | error e => rw [stepBy_unknown hh hf hd, stepBy_unknown hh hf hd]
      | ok i => exact absurd ⟨hh, hf, hd⟩ (h i)

/-- Settles O54: the step is one function of the instructions' meanings, and the font reaches LD F,Vx alone. -/
theorem fontIsAParameter : Obligations.FontIsAParameter := by
  refine ⟨fun font x s hf hv => ⟨_, ?_, execLdFAt_ok hv⟩, fun font x s hv => ?_,
    fun font i s hi => execAt_eq_exec font hi s, fun font i s ⟨hh, hf, hd⟩ => stepBy_run hh hf hd,
    fun font s h => stepBy_of_not_runsNext h, stepAt_default, fun op s => rfl⟩
  · obtain ⟨hb, -⟩ := (Font.wf_iff font).1 hf
    rw [BitVec.toNat_ofNat, Nat.mod_eq_of_lt (by omega)]
  · exact (execLdFAt_error hv).trans (by rw [takeFault_eq_faulted, encode, ← wordXNN_eq]; rfl)

/-! ### The status word -/

theorem Fault.code_lt (f : Fault) : f.code < 16 := by cases f <;> simp [Fault.code]

theorem faultCode_none {s : State} (h : s.fault = none) : s.faultCode = 0 := by simp only [State.faultCode, h]

theorem faultCode_some {s : State} {r : FaultRecord} (h : s.fault = some r) : s.faultCode = r.fault.code := by
  simp only [State.faultCode, h]

/-- FAULT_CODE fits its four bits. -/
theorem faultCode_lt (s : State) : s.faultCode < 16 := by
  cases h : s.fault with
  | none => rw [faultCode_none h]; decide
  | some r => rw [faultCode_some h]; exact r.fault.code_lt

/-- The status word as a number: its flags in bits 4:0, and FAULT_CODE from bit 8. -/
theorem statusWord_toNat (s : State) : s.statusWord.toNat =
    256 * s.faultCode + 16 * s.soundActive.toNat + 8 * s.displayChanged.toNat + 4 * s.waitingRelease.toNat +
      2 * s.blocked.toNat + s.halted.toNat := by
  have hc := faultCode_lt s
  simp only [State.statusWord, toNat_append_add, BitVec.toNat_ofBool, BitVec.toNat_ofNat, BitVec.reduceToNat]
  omega

/-- A bit of a word, from the word as a number. -/
theorem getLsbD_of_toNat {n k : Nat} {w : BitVec n} {b : Bool} (h : w.toNat / 2 ^ k % 2 = b.toNat) :
    w.getLsbD k = b := by
  rw [BitVec.getLsbD, Nat.testBit_eq_decide_div_mod_eq, h]
  cases b <;> rfl

/-- Settles O58: every clause is read off the status word as a number. -/
theorem statusWordLayout : Obligations.StatusWordLayout := by
  intro s
  have hn := statusWord_toNat s
  have hc := faultCode_lt s
  have h4 := s.soundActive.toNat_lt
  have h3 := s.displayChanged.toNat_lt
  have h2 := s.waitingRelease.toNat_lt
  have h1 := s.blocked.toNat_lt
  have h0 := s.halted.toNat_lt
  have hsound : s.statusWord.getLsbD 4 = s.soundActive := getLsbD_of_toNat (by omega)
  have hcode : s.statusWord.toNat / 256 % 16 = s.faultCode := by omega
  refine ⟨getLsbD_of_toNat (by omega), getLsbD_of_toNat (by omega), getLsbD_of_toNat (by omega),
    getLsbD_of_toNat (by omega), ?_, by omega, by omega, fun hf => ?_, fun r hr => ?_⟩
  · rw [hsound, State.soundActive, decide_eq_true_eq]
  · rw [hcode, faultCode_none hf]
  · rw [hcode, faultCode_some hr]
    cases r.fault <;> rfl

end Sys2Proof.Machine
end

section
/-! Memory (20_memory.md): which steps change it, and that a fetch reads what the data stores before it wrote.

The two data stores, BCD and LD [I],Vx, are one operation on a list of bytes (`State.storesData`): it writes the whole
list at `I`, or faults and writes nothing. -/

namespace Sys2Proof.Machine

/-! ### Who writes memory -/

/-- The address `a` is one that the instruction stores to when it raises no fault (R68). -/
def StoresAt (s : State) (a : Nat) : Instr → Prop
  | .call _ => a = (s.sp - 2).toNat ∨ a = (s.sp - 2).toNat + 1
  | .cls _ => 0xF00 ≤ a ∧ a < 0x1000
  | .drw x y n => drawWrites (s.getV x) (s.getV y) n a
  | .bcd _ => s.i.toNat ≤ a ∧ a ≤ s.i.toNat + 2
  | .storeRegs x => s.i.toNat ≤ a ∧ a ≤ s.i.toNat + x.val
  | _ => False

theorem memChanged_self (s : State) (A : Nat → Prop) : MemChanged s s.mem A := fun hw => ⟨hw, fun _ _ => rfl⟩

/-- A footprint changes memory only where the instruction stores. -/
theorem footprint_memChanged {s t : State} {i : Instr} (h : Footprint s t i) :
    MemChanged s t.mem fun a => StoresAt s a i := by
  cases i
  case cls | bcd | storeRegs => obtain ⟨m, rfl, hm⟩ := h; exact hm
  case drw => obtain ⟨m, c, rfl, hm⟩ := h; exact hm
  case call => obtain ⟨m, e, -, hm⟩ := h; rw [e]; exact hm
  case ret => obtain ⟨e, -⟩ := h; rw [e]; exact memChanged_self s _
  case getk => obtain ⟨b, bl, wr, e, -⟩ := h; rw [e]; exact memChanged_self s _
  case loadRegs => obtain ⟨v, rfl, -⟩ := h; exact memChanged_self s _
  case rnd => obtain ⟨b, -, rfl⟩ := h; exact memChanged_self s _
  case ldImm | addImm | ldReg | or | and | xor | ldVxDt => obtain ⟨b, rfl⟩ := h; exact memChanged_self s _
  case add | sub | subn | shr | shl => obtain ⟨b, c, rfl | rfl⟩ := h <;> exact memChanged_self s _
  all_goals rw [show t = _ from h]; exact memChanged_self s _

/-- A byte that a step changes lies where the instruction it runs stores. -/
theorem step_storesAt_of_changed {s t : State} {a : Nat} (hw : Memory.wf s.mem = true) (h : step s = .next t)
    (hne : t.byte a ≠ s.byte a) : ∃ i, s.runsNext i ∧ Footprint s t i ∧ StoresAt s a i := by
  obtain ⟨i, hi, hp⟩ := step_footprint_of_changed (fun u => u.byte a) h (fun _ _ => rfl) hne
  obtain ⟨-, hkeep⟩ := footprint_memChanged hp hw
  exact ⟨i, hi, hp, not_imp_comm.1 (hkeep a) hne⟩

/-- Settles O51: the instructions that store are the five, and each stores where the statement says. -/
theorem onlyStoresChangeMemory : Obligations.OnlyStoresChangeMemory := by
  intro s t a hw h hne
  obtain ⟨i, hi, -, ha⟩ := step_storesAt_of_changed hw h hne
  cases i with
  | call nnn => exact .inl ⟨nnn, hi, ha⟩
  | cls g => exact .inr (.inl ⟨g, hi, ha⟩)
  | drw x y n => exact .inr (.inr (.inl ⟨x, y, n, hi, ha⟩))
  | bcd x => exact .inr (.inr (.inr (.inl ⟨x, hi, ha⟩)))
  | storeRegs x => exact .inr (.inr (.inr (.inr ⟨x, hi, ha⟩)))
  | _ => exact ha.elim

/-! ### The data stores as one operation -/

theorem step_of_runsNext {s : State} {i : Instr} (h : s.runsNext i) : step s = exec i s := by
  obtain ⟨hh, hf, hd⟩ := h
  exact step_exec hh hf hd

/-- The next step is BCD or LD [I],Vx, with `bs` as the bytes to store from `I` on. -/
def State.storesData (s : State) (bs : List Byte) : Prop :=
  (∃ x, s.runsNext (.bcd x) ∧ bs = decimalDigits (s.getV x)) ∨ ∃ x, s.runsNext (.storeRegs x) ∧ bs = regsUpTo x s

section StoresData
variable {s t : State} {bs : List Byte}

/-- Both data stores try to store their bytes from `I` on, in ascending order. -/
theorem step_eq_attempt_of_storesData (h : s.storesData bs) : ∃ i, step s = attempt i (storeBytes s.i.toNat bs) s := by
  obtain ⟨x, hi, rfl⟩ | ⟨x, hi, rfl⟩ := h
  · exact ⟨.bcd x, step_of_runsNext hi⟩
  · exact ⟨.storeRegs x, step_of_runsNext hi⟩

/-- A data store that fits writes its bytes and advances `PC`. -/
theorem step_storesData_ok (h : s.storesData bs) (hfit : s.i.toNat + bs.length ≤ 0x1000) :
    step s = .next { s with pc := s.pc + 2, mem := Memory.writeAll s.mem s.i.toNat bs } := by
  obtain ⟨i, e⟩ := step_eq_attempt_of_storesData h
  rw [e]
  exact attempt_ok (storeBytes_ok bs _ _ hfit)

/-- A data store that does not fit takes a fault. -/
theorem step_storesData_error (h : s.storesData bs) (hfit : 0x1000 < s.i.toNat + bs.length) :
    ∃ f op, step s = .next (takeFault f op s) := by
  obtain ⟨i, e⟩ := step_eq_attempt_of_storesData h
  exact ⟨_, _, e.trans (attempt_error (storeBytes_error bs _ _ hfit s.i.isLt.le))⟩

/-- A data store that changes a byte fits in memory. -/
theorem storesData_fits_of_changed {a : Nat} (h : s.storesData bs) (hs : step s = .next t)
    (hne : t.byte a ≠ s.byte a) : s.i.toNat + bs.length ≤ 0x1000 := by
  by_contra hfit
  obtain ⟨f, op, e⟩ := step_storesData_error h (not_le.1 hfit)
  rw [e] at hs
  cases hs
  exact hne rfl

end StoresData

/-! ### What a data store writes, byte by byte -/

/-- A byte is the one made of a number below 256 exactly when it has that number. -/
theorem ofNat_eq_iff_toNat {n : Nat} (hn : n < 256) (b : Byte) : BitVec.ofNat 8 n = b ↔ b.toNat = n := by
  rw [← BitVec.toNat_inj, BitVec.toNat_ofNat, Nat.mod_eq_of_lt hn, eq_comm]

/-- The bytes that BCD stores. -/
theorem decimalDigits_getElem?_eq_some {d b : Byte} {k : Nat} :
    (decimalDigits d)[k]? = some b ↔ (k = 0 ∧ b.toNat = d.toNat / 100) ∨ (k = 1 ∧ b.toNat = d.toNat / 10 % 10) ∨
      (k = 2 ∧ b.toNat = d.toNat % 10) := by
  have hd := d.isLt
  match k with
  | 0 => simp [decimalDigits, ofNat_eq_iff_toNat (show d.toNat / 100 < 256 by omega)]
  | 1 => simp [decimalDigits, ofNat_eq_iff_toNat (show d.toNat / 10 % 10 < 256 by omega)]
  | 2 => simp [decimalDigits, ofNat_eq_iff_toNat (show d.toNat % 10 < 256 by omega)]
  | k + 3 => simp [decimalDigits]

/-- The bytes that LD [I],Vx stores. -/
theorem regsUpTo_getElem?_eq_some {x : RegIdx} {s : State} {b : Byte} {k : Nat} :
    (regsUpTo x s)[k]? = some b ↔ ∃ r : RegIdx, r ≤ x ∧ k = r.val ∧ b = s.getV r := by
  rw [List.getElem?_eq_some_iff]
  constructor
  · rintro ⟨hk, e⟩
    have hx := regsUpTo_length x s
    exact ⟨⟨k, by omega⟩, Fin.le_def.2 (by simp only; omega), rfl, e.symm.trans (regsUpTo_getElem x s k hk)⟩
  · rintro ⟨r, hr, rfl, rfl⟩
    have hk : r.val < (regsUpTo x s).length := by rw [regsUpTo_length]; exact Nat.lt_succ_of_le hr
    exact ⟨hk, regsUpTo_getElem x s r.val hk⟩

/-- The bytes that a step stores, as the statement names them, are those of a data store that fits. -/
theorem storesByte_iff {s : State} {a : Nat} {b : Byte} :
    s.storesByte a b ↔ ∃ bs, s.storesData bs ∧ s.i.toNat + bs.length ≤ 0x1000 ∧
      ∃ k, a = s.i.toNat + k ∧ bs[k]? = some b := by
  constructor
  · rintro (⟨x, hi, hfit, r, hr, rfl, rfl⟩ | ⟨x, hi, hfit, hb⟩)
    · refine ⟨_, .inr ⟨x, hi, rfl⟩, ?_, r.val, rfl, regsUpTo_getElem?_eq_some.2 ⟨r, hr, rfl, rfl⟩⟩
      rw [regsUpTo_length]; omega
    · refine ⟨_, .inl ⟨x, hi, rfl⟩, ?_, a - s.i.toNat, ?_, decimalDigits_getElem?_eq_some.2 ?_⟩
      · rw [decimalDigits_length]; omega
      all_goals omega
  · rintro ⟨bs, ⟨x, hi, rfl⟩ | ⟨x, hi, rfl⟩, hfit, k, rfl, hb⟩
    · rw [decimalDigits_length] at hfit
      rw [decimalDigits_getElem?_eq_some] at hb
      exact .inr ⟨x, hi, by omega, by omega⟩
    · rw [regsUpTo_length] at hfit
      obtain ⟨r, hr, rfl, rfl⟩ := regsUpTo_getElem?_eq_some.1 hb
      exact .inl ⟨x, hi, by omega, r, hr, rfl, rfl⟩

/-- After a data store the byte holds what was stored there (R71). -/
theorem step_storesByte {s t : State} {a : Nat} {b : Byte} (hw : Memory.wf s.mem = true) (hst : s.storesByte a b)
    (h : step s = .next t) : t.byte a = b := by
  obtain ⟨bs, hd, hfit, k, rfl, hb⟩ := storesByte_iff.1 hst
  obtain ⟨hk, rfl⟩ := List.getElem?_eq_some_iff.1 hb
  rw [step_storesData_ok hd hfit] at h
  cases h
  exact Memory.read_writeAll_at hw hfit hk

/-- A step whose instruction is BCD or LD [I],Vx and that changes a byte in its range stored a byte there. -/
theorem storesByte_of_changed {s t : State} {a : Nat} {bs : List Byte} (hd : s.storesData bs) (h : step s = .next t)
    (hne : t.byte a ≠ s.byte a) (hlo : s.i.toNat ≤ a) (hhi : a < s.i.toNat + bs.length) : ∃ b, s.storesByte a b :=
  have hk : a - s.i.toNat < bs.length := by omega
  ⟨_, storesByte_iff.2 ⟨bs, hd, storesData_fits_of_changed hd h hne, a - s.i.toNat, by omega,
    List.getElem?_eq_getElem hk⟩⟩

/-! ### A run -/

/-- Below the stack only a data store changes a byte: CALL writes at or above STACK_BASE, CLS and DRW in the framebuffer
(R71, R74). -/
theorem step_keeps_byte {s t : State} {a : Nat} (hinv : Inv s) (ha : a < 0xEA0) (h : step s = .next t)
    (hst : ∀ b, ¬ s.storesByte a b) : t.byte a = s.byte a := by
  by_contra hne
  obtain ⟨i, hi, hp, hat⟩ := step_storesAt_of_changed hinv.memory_canonical h hne
  cases i with
  | call nnn =>
    obtain ⟨-, -, hsp, -⟩ := hp
    have heven := hinv.sp_even
    have hsub : (s.sp - 2).toNat = s.sp.toNat - 2 := by bv_omega
    simp only [StoresAt] at hat
    omega
  | cls g =>
    obtain ⟨hfb, -⟩ := hat
    omega
  | drw x y n =>
    obtain ⟨k, -, e⟩ := hat
    omega
  | bcd x =>
    obtain ⟨hlo, hhi⟩ := hat
    obtain ⟨b, hb⟩ := storesByte_of_changed (.inl ⟨x, hi, rfl⟩) h hne hlo
      (by rw [decimalDigits_length]; exact Nat.lt_succ_of_le hhi)
    exact hst b hb
  | storeRegs x =>
    obtain ⟨hlo, hhi⟩ := hat
    obtain ⟨b, hb⟩ := storesByte_of_changed (.inr ⟨x, hi, rfl⟩) h hne hlo
      (by rw [regsUpTo_length]; exact Nat.lt_succ_of_le hhi)
    exact hst b hb
  | _ => exact hat

section Run
variable {σ : Nat → State} {k : Nat} (hinv : ∀ j ≤ k, Inv (σ j)) (hstep : ∀ j < k, step (σ j) = .next (σ (j + 1)))
include hinv hstep

/-- A byte below the stack that no step from `m` on stores keeps its value. -/
theorem run_keeps_byte {m n a : Nat} (ha : a < 0xEA0) (hmn : m ≤ n) (hnk : n ≤ k)
    (hno : ∀ j, m ≤ j → j < n → ∀ b, ¬ (σ j).storesByte a b) : (σ n).byte a = (σ m).byte a := by
  induction n, hmn using Nat.le_induction with
  | base => rfl
  | succ n hmn ih =>
    calc (σ (n + 1)).byte a
      _ = (σ n).byte a := step_keeps_byte (hinv n (by omega)) ha (hstep n hnk) (hno n hmn (Nat.lt_succ_self n))
      _ = (σ m).byte a := ih (by omega) fun j hj hjn => hno j hj (by omega)

/-- A byte below the stack holds what was last stored there, or what it held at the start. -/
theorem byte_of_lastStored {a : Nat} {b : Byte} (ha : a < 0xEA0) (hl : lastStored σ k a b) : (σ k).byte a = b := by
  obtain ⟨j, hj, hst, hno⟩ | ⟨hno, hb⟩ := hl
  · rw [run_keeps_byte hinv hstep ha hj le_rfl hno]
    exact step_storesByte (hinv j hj.le).memory_canonical hst (hstep j hj)
  · rw [run_keeps_byte hinv hstep ha (Nat.zero_le k) le_rfl fun j _ => hno j, hb]

end Run

/-- LD [I],Vx over the two bytes after itself: the next step runs the instruction they now hold (R74). -/
theorem step_after_storing_next {x : RegIdx} {i : Instr} {s : State} (hw : Memory.wf s.mem = true)
    (hi : s.runsNext (.storeRegs x)) (hx : 1 ≤ x.val) (hat : s.i.toNat = s.pc.toNat + 2) (hpc : s.pc.toNat + 4 ≤ 0xEA0)
    (hd : decode (wordOfBytes (s.getV 0) (s.getV 1)) = .ok i) : ∃ t, step s = .next t ∧ step t = exec i t := by
  have hfit : s.i.toNat + (regsUpTo x s).length ≤ 0x1000 := by rw [regsUpTo_length]; omega
  have hs := step_storesData_ok (.inr ⟨x, hi, rfl⟩) hfit
  have hbyte : ∀ r : RegIdx, r ≤ x → s.storesByte (s.i.toNat + r.val) (s.getV r) := fun r hr =>
    .inl ⟨x, hi, by rw [regsUpTo_length] at hfit; omega, r, hr, rfl, rfl⟩
  have hword : ∀ t, step s = .next t → t.word s.i.toNat = wordOfBytes (s.getV 0) (s.getV 1) := fun t ht =>
    congrArg₂ wordOfBytes (step_storesByte hw (hbyte 0 (Fin.zero_le x)) ht) (step_storesByte hw (hbyte 1 hx) ht)
  obtain ⟨hh, hf, -⟩ := hi
  have hlo := ((fetchable_iff s).1 hf).1
  have hadv : (s.pc + 2).toNat = s.i.toNat := by bv_omega
  refine ⟨_, hs, step_of_runsNext ⟨hh, (fetchable_iff _).2 ?_, ?_⟩⟩
  · simp only [hadv]; omega
  · rw [hadv, hword _ hs, hd]

/-- Settles O35: each fetched byte holds what was last stored there, and the step runs the word of the two. -/
theorem fetchSeesEarlierStores : Obligations.FetchSeesEarlierStores := by
  refine ⟨fun σ k b0 b1 hinv hstep hh hlo hhi h0 h1 => ?_, fun x i s => step_after_storing_next⟩
  have hf : (σ k).fetchable = true := (fetchable_iff _).2 ⟨hlo, hhi⟩
  have hword : (σ k).word (σ k).pc.toNat = wordOfBytes b0 b1 := by
    rw [State.word, byte_of_lastStored hinv hstep (by omega) h0, byte_of_lastStored hinv hstep (by omega) h1]
  rw [← hword]
  exact ⟨fetch_ok hf, fun i => step_exec hh hf, fun e => step_unknown hh hf⟩

end Sys2Proof.Machine
end

section
/-! Encoding (30_encoding.md): the decoder and the encoder invert each other, the decoder follows the opcode table, the
unknown encodings are those of R92, and a step runs what it decodes.

A word is the packing of its own fields, so an instruction with the selectors and the operands of `w` encodes to `w`.
Two lemmas say everything the decoder does: it reads back every known word (`readsBack_of_known`) and rejects every
unknown one by name (`decode_of_unknown`). -/

namespace Sys2Proof.Machine

/-! ### Decoding a packed word -/

section Groups
variable {w : Word}

theorem decode_eq_decode0 (hg : opGroup w = 0x0) : decode w = decode0 w := by rw [decode, hg]; rfl

theorem decode_eq_decode8 (hg : opGroup w = 0x8) : decode w = decode8 w := by rw [decode, hg]; rfl

theorem decode_eq_decodeE (hg : opGroup w = 0xE) : decode w = decodeE w := by rw [decode, hg]; rfl

theorem decode_eq_decodeF (hg : opGroup w = 0xF) : decode w = decodeF w := by rw [decode, hg]; rfl

end Groups

/-- Settles O1: the decoder finds the selectors that the encoder packed, and reads back the operands. A height of DRW
survives its four bits because it is at most 15. -/
theorem decodeInvertsEncode : Obligations.DecodeInvertsEncode := by
  intro i hw
  cases i
  case cls | ret => rw [encode, decode_eq_decode0 (opGroup_packSel ..), decode0, opHi_packSel, opNN_packSel]; rfl
  case jp | call | ldI | jpV0 => rw [encode, decode, opGroup_packNNN, opNNN_packNNN]; rfl
  case seImm | sneImm | ldImm | addImm | rnd =>
    rw [encode, decode, opGroup_packXNN, opX_packXNN, opNN_packXNN]; rfl
  case seReg | sneReg => rw [encode, decode, opGroup_packXYN, opX_packXYN, opY_packXYN, opN_packXYN]; rfl
  case drw x y n =>
    have hn : (BitVec.ofNat 4 n).toNat = n := Nat.mod_eq_of_lt (Nat.lt_succ_of_le (of_decide_eq_true hw))
    rw [encode, decode, opGroup_packXYN, opX_packXYN, opY_packXYN, opN_packXYN, hn]; rfl
  case ldReg | or | and | xor | add | sub | subn =>
    rw [encode, decode_eq_decode8 (opGroup_packXYN ..), decode8, opX_packXYN, opY_packXYN, opN_packXYN]; rfl
  case shr | shl =>
    rw [encode, decode_eq_decode8 (opGroup_packXMN ..), decode8, opX_packXMN, opMid_packXMN, opN_packXMN]; rfl
  case keyd | keyu =>
    rw [encode, decode_eq_decodeE (opGroup_packXNN ..), decodeE, opX_packXNN, opNN_packXNN]; rfl
  case ldVxDt | getk | ldDtVx | ldStVx | addI | ldF | bcd | storeRegs | loadRegs =>
    rw [encode, decode_eq_decodeF (opGroup_packXNN ..), decodeF, opX_packXNN, opNN_packXNN]; rfl

/-! ### A word whose selectors are given -/

section Fields
variable {w : Word} {g : Nibble}

theorem packNNN_of_fields (hg : opGroup w = g) : packNNN g (opNNN w) = w := by
  rw [← hg, packNNN_fields]

theorem packSel_of_fields {sel : Byte} (hg : opGroup w = g) (hs : opNN w = sel) : packSel g (opHi w) sel = w := by
  rw [← hg, ← hs, packSel_fields]

theorem packXNN_of_fields {nn : Byte} (hg : opGroup w = g) (hs : opNN w = nn) : packXNN g (opX w) nn = w := by
  rw [← hg, ← hs, packXNN_fields]

theorem packXMN_of_fields {n : Nibble} (hg : opGroup w = g) (hs : opN w = n) :
    packXMN g (opX w) (opMid w) n = w := by
  rw [← hg, ← hs, packXMN_fields]

theorem packXYN_of_fields {n : Nibble} (hg : opGroup w = g) (hs : opN w = n) : packXYN g (opX w) (opY w) n = w :=
  packXMN_of_fields hg hs

end Fields

/-! ### What the decoder does with each group -/

/-- The low bytes that name an instruction of group 0x0 (R87). -/
def selectors0 : List Byte := [0xE0, 0xEE]

/-- The low nibbles that name an instruction of group 0x8 (R88). -/
def selectors8 : List Nibble := [0x0, 0x1, 0x2, 0x3, 0x4, 0x5, 0x6, 0x7, 0xE]

/-- The low bytes that name an instruction of group 0xE (R89). -/
def selectorsE : List Byte := [0x9E, 0xA1]

/-- The low bytes that name an instruction of group 0xF (R90). -/
def selectorsF : List Byte := [0x07, 0x0A, 0x15, 0x18, 0x1E, 0x29, 0x33, 0x55, 0x65]

/-- The word decodes, and to a well-formed instruction whose word it is. -/
def ReadsBack (w : Word) : Prop := ∃ i, decode w = .ok i ∧ i.wellFormed = true ∧ encode i = w

section Groups
variable {w : Word}

theorem readsBack_formNNN (h : opGroup w = 0x1 ∨ opGroup w = 0x2 ∨ opGroup w = 0xA ∨ opGroup w = 0xB) :
    ReadsBack w := by
  rw [ReadsBack, decode]
  rcases h with h | h | h | h <;> rw [h] <;> exact ⟨_, rfl, rfl, packNNN_of_fields h⟩

theorem readsBack_formXNN
    (h : opGroup w = 0x3 ∨ opGroup w = 0x4 ∨ opGroup w = 0x6 ∨ opGroup w = 0x7 ∨ opGroup w = 0xC) : ReadsBack w := by
  rw [ReadsBack, decode]
  rcases h with h | h | h | h | h <;> rw [h] <;> exact ⟨_, rfl, rfl, packXNN_of_fields h rfl⟩

theorem readsBack_formXY (h : opGroup w = 0x5 ∨ opGroup w = 0x9) : ReadsBack w := by
  rw [ReadsBack, decode]
  rcases h with h | h <;> rw [h] <;> exact ⟨_, rfl, rfl, packXYN_of_fields h rfl⟩

theorem readsBack_drw (h : opGroup w = 0xD) : ReadsBack w := by
  have hn : opN w = BitVec.ofNat 4 (opN w).toNat := by rw [BitVec.ofNat_toNat, BitVec.setWidth_eq]
  rw [ReadsBack, decode, h]
  exact ⟨_, rfl, decide_eq_true (Nat.le_of_lt_succ (opN w).isLt), packXYN_of_fields h hn⟩

theorem readsBack_group0 (hg : opGroup w = 0x0) (hs : opNN w ∈ selectors0) : ReadsBack w := by
  simp only [selectors0, List.mem_cons, List.not_mem_nil, or_false] at hs
  rw [ReadsBack, decode_eq_decode0 hg, decode0]
  rcases hs with h | h <;> rw [h] <;> exact ⟨_, rfl, rfl, packSel_of_fields hg h⟩

theorem readsBack_group8 (hg : opGroup w = 0x8) (hs : opN w ∈ selectors8) : ReadsBack w := by
  simp only [selectors8, List.mem_cons, List.not_mem_nil, or_false] at hs
  rw [ReadsBack, decode_eq_decode8 hg, decode8]
  rcases hs with h | h | h | h | h | h | h | h | h <;> rw [h] <;> exact ⟨_, rfl, rfl, packXMN_of_fields hg h⟩

theorem readsBack_groupE (hg : opGroup w = 0xE) (hs : opNN w ∈ selectorsE) : ReadsBack w := by
  simp only [selectorsE, List.mem_cons, List.not_mem_nil, or_false] at hs
  rw [ReadsBack, decode_eq_decodeE hg, decodeE]
  rcases hs with h | h <;> rw [h] <;> exact ⟨_, rfl, rfl, packXNN_of_fields hg h⟩

theorem readsBack_groupF (hg : opGroup w = 0xF) (hs : opNN w ∈ selectorsF) : ReadsBack w := by
  simp only [selectorsF, List.mem_cons, List.not_mem_nil, or_false] at hs
  rw [ReadsBack, decode_eq_decodeF hg, decodeF]
  rcases hs with h | h | h | h | h | h | h | h | h <;> rw [h] <;> exact ⟨_, rfl, rfl, packXNN_of_fields hg h⟩

theorem decode0_of_notMem (hs : opNN w ∉ selectors0) : decode0 w = .error (.unknownOpcode w) := by
  simp_all [decode0, selectors0]

theorem decode8_of_notMem (hs : opN w ∉ selectors8) : decode8 w = .error (.unknownOpcode w) := by
  simp_all [decode8, selectors8]

theorem decodeE_of_notMem (hs : opNN w ∉ selectorsE) : decodeE w = .error (.unknownOpcode w) := by
  simp_all [decodeE, selectorsE]

theorem decodeF_of_notMem (hs : opNN w ∉ selectorsF) : decodeF w = .error (.unknownOpcode w) := by
  simp_all [decodeF, selectorsF]

/-! ### Known and unknown words -/

/-- R92 by the fields of the word: a group with a second selector, and a selector that names nothing. -/
theorem unknownWord_iff : unknownWord w.toNat ↔
    (opGroup w = 0x0 ∧ opNN w ∉ selectors0) ∨ (opGroup w = 0x8 ∧ opN w ∉ selectors8) ∨
    (opGroup w = 0xE ∧ opNN w ∉ selectorsE) ∨ (opGroup w = 0xF ∧ opNN w ∉ selectorsF) := by
  have h8 : ∀ n : Nibble, n.toNat ∈ [0x8, 0x9, 0xA, 0xB, 0xC, 0xD, 0xF] ↔ n ∉ selectors8 := by decide
  rw [unknownWord, ← opGroup_toNat, ← opN_toNat, ← opNN_toNat, h8]
  simp only [selectors0, selectorsE, selectorsF, ← BitVec.toNat_inj, List.mem_cons, List.not_mem_nil,
    BitVec.reduceToNat]

/-- The sixteen groups: the four with a second selector, then the others by the form of their operands (R84). -/
theorem group_cases (g : Nibble) : g = 0x0 ∨ g = 0x8 ∨ g = 0xE ∨ g = 0xF ∨ (g = 0x1 ∨ g = 0x2 ∨ g = 0xA ∨ g = 0xB) ∨
    (g = 0x3 ∨ g = 0x4 ∨ g = 0x6 ∨ g = 0x7 ∨ g = 0xC) ∨ (g = 0x5 ∨ g = 0x9) ∨ g = 0xD := by
  revert g; decide

theorem readsBack_of_known (h : ¬ unknownWord w.toNat) : ReadsBack w := by
  simp only [unknownWord_iff, not_or, not_and, not_not] at h
  obtain ⟨h0, h8, hE, hF⟩ := h
  rcases group_cases (opGroup w) with hg | hg | hg | hg | hg | hg | hg | hg
  · exact readsBack_group0 hg (h0 hg)
  · exact readsBack_group8 hg (h8 hg)
  · exact readsBack_groupE hg (hE hg)
  · exact readsBack_groupF hg (hF hg)
  · exact readsBack_formNNN hg
  · exact readsBack_formXNN hg
  · exact readsBack_formXY hg
  · exact readsBack_drw hg

theorem decode_of_unknown (h : unknownWord w.toNat) : decode w = .error (.unknownOpcode w) := by
  obtain ⟨hg, hs⟩ | ⟨hg, hs⟩ | ⟨hg, hs⟩ | ⟨hg, hs⟩ := unknownWord_iff.1 h
  · rw [decode_eq_decode0 hg, decode0_of_notMem hs]
  · rw [decode_eq_decode8 hg, decode8_of_notMem hs]
  · rw [decode_eq_decodeE hg, decodeE_of_notMem hs]
  · rw [decode_eq_decodeF hg, decodeF_of_notMem hs]

theorem known_of_decode_ok {i : Instr} (h : decode w = .ok i) : ¬ unknownWord w.toNat := fun hu => by
  rw [decode_of_unknown hu] at h
  cases h

theorem unknown_of_decode_error {e : DecodeError} (h : decode w = .error e) : unknownWord w.toNat := by
  by_contra hk
  obtain ⟨i, hd, -⟩ := readsBack_of_known hk
  rw [h] at hd
  cases hd

end Groups

/-- Settles O2: what decodes is no unknown word, and the decoder reads back every other word. -/
theorem encodeInvertsDecode : Obligations.EncodeInvertsDecode := by
  intro w i h
  obtain ⟨j, hd, hj⟩ := readsBack_of_known (known_of_decode_ok h)
  rw [h] at hd
  cases hd
  exact hj

/-- Settles O5: the decoder rejects the unknown words alone, and the step takes the fault of the rejected word. -/
theorem unknownWordsAreExactlyThese : Obligations.UnknownWordsAreExactlyThese := by
  refine ⟨fun w => ⟨unknown_of_decode_error, decode_of_unknown⟩,
    fun w => ⟨fun ⟨i, hd⟩ => known_of_decode_ok hd, fun h => ?_⟩,
    fun s hh hf hu => step_unknown hh hf (decode_of_unknown hu)⟩
  obtain ⟨i, hd, -⟩ := readsBack_of_known h
  exact ⟨i, hd⟩

/-! ### The opcode table -/

section Masks
variable {w v : Word}

theorem opGroup_of_groupMask (h : w &&& 0xF000 = v) : opGroup w = opGroup v := by
  rw [← h, and_groupMask, opGroup_packNNN]

theorem fields_of_byteMask (h : w &&& 0xF0FF = v) : opGroup w = opGroup v ∧ opNN w = opNN v := by
  rw [← h, and_selectorByteMask, opGroup_packSel, opNN_packSel]
  exact ⟨rfl, rfl⟩

theorem fields_of_nibbleMask (h : w &&& 0xF00F = v) : opGroup w = opGroup v ∧ opN w = opN v := by
  rw [← h, and_selectorNibbleMask, opGroup_packXMN, opN_packXMN]
  exact ⟨rfl, rfl⟩

end Masks

open Laws in
/-- The word of an instruction matches its row. -/
theorem encode_matches_row : ∀ i : Instr, i.row.matches (encode i)
  | .cls g => EncodedRow.cls g
  | .ret g => EncodedRow.ret g
  | .jp nnn => EncodedRow.jp nnn
  | .call nnn => EncodedRow.call nnn
  | .seImm x nn => EncodedRow.seImm x nn
  | .sneImm x nn => EncodedRow.sneImm x nn
  | .seReg x y l => EncodedRow.seReg x y l
  | .ldImm x nn => EncodedRow.ldImm x nn
  | .addImm x nn => EncodedRow.addImm x nn
  | .ldReg x y => EncodedRow.ldReg x y
  | .or x y => EncodedRow.or x y
  | .and x y => EncodedRow.and x y
  | .xor x y => EncodedRow.xor x y
  | .add x y => EncodedRow.add x y
  | .sub x y => EncodedRow.sub x y
  | .shr x m => EncodedRow.shr x m
  | .subn x y => EncodedRow.subn x y
  | .shl x m => EncodedRow.shl x m
  | .sneReg x y l => EncodedRow.sneReg x y l
  | .ldI nnn => EncodedRow.ldI nnn
  | .jpV0 nnn => EncodedRow.jpV0 nnn
  | .rnd x nn => EncodedRow.rnd x nn
  | .drw x y n => EncodedRow.drw x y n
  | .keyd x => EncodedRow.keyd x
  | .keyu x => EncodedRow.keyu x
  | .ldVxDt x => EncodedRow.ldVxDt x
  | .getk x => EncodedRow.getk x
  | .ldDtVx x => EncodedRow.ldDtVx x
  | .ldStVx x => EncodedRow.ldStVx x
  | .addI x => EncodedRow.addI x
  | .ldF x => EncodedRow.ldF x
  | .bcd x => EncodedRow.bcd x
  | .storeRegs x => EncodedRow.storeRegs x
  | .loadRegs x => EncodedRow.loadRegs x

/-- A word that matches a row has the selectors of the row, and these decide the branch of the decoder. -/
theorem exists_decode_of_matches {w : Word} {i : Instr} (h : i.row.matches w) :
    ∃ j, decode w = .ok j ∧ j.row = i.row := by
  cases i <;> simp only [OpcodeRow.matches, Instr.row] at h
  case cls | ret =>
    obtain ⟨hg, hs⟩ := fields_of_byteMask h
    rw [decode_eq_decode0 hg, decode0, hs]
    exact ⟨_, rfl, rfl⟩
  case ldReg | or | and | xor | add | sub | shr | subn | shl =>
    obtain ⟨hg, hs⟩ := fields_of_nibbleMask h
    rw [decode_eq_decode8 hg, decode8, hs]
    exact ⟨_, rfl, rfl⟩
  case keyd | keyu =>
    obtain ⟨hg, hs⟩ := fields_of_byteMask h
    rw [decode_eq_decodeE hg, decodeE, hs]
    exact ⟨_, rfl, rfl⟩
  case ldVxDt | getk | ldDtVx | ldStVx | addI | ldF | bcd | storeRegs | loadRegs =>
    obtain ⟨hg, hs⟩ := fields_of_byteMask h
    rw [decode_eq_decodeF hg, decodeF, hs]
    exact ⟨_, rfl, rfl⟩
  case jp | call | seImm | sneImm | seReg | ldImm | addImm | sneReg | ldI | jpV0 | rnd | drw =>
    rw [decode, opGroup_of_groupMask h]
    exact ⟨_, rfl, rfl⟩

/-- Settles O4: what decodes encodes to the word, so the word matches its row; and a row's words decode to the row. -/
theorem decodeFollowsOpcodeTable : Obligations.DecodeFollowsOpcodeTable := by
  refine fun w i => ⟨fun ⟨j, hd, hr⟩ => ?_, exists_decode_of_matches⟩
  obtain ⟨-, he⟩ := encodeInvertsDecode w j hd
  rw [← hr, ← he]
  exact encode_matches_row j

/-- Settles O3, by evaluation of the decoder. -/
theorem specWordsDecode : Obligations.SpecWordsDecode := by
  unfold Obligations.SpecWordsDecode
  decide

/-! ### The step -/

/-- Settles O9: a halted core stays, a fault of fetch or decode is taken, and every instruction answers a next state. -/
theorem everyStepAnswersNextState : Obligations.EveryStepAnswersNextState := by
  intro s
  cases hh : s.halted with
  | true => exact ⟨s, step_halted hh⟩
  | false =>
    cases hf : s.fetchable with
    | false => exact ⟨_, step_fetch_fault hh hf⟩
    | true =>
      cases hd : decode (s.word s.pc.toNat) with
      | error e => exact ⟨_, step_unknown hh hf hd⟩
      | ok i => rw [step_exec hh hf hd]; exact exec_next i s

/-- The word of two bytes as a number: big-endian. -/
theorem wordOfBytes_eq_ofNat (hi lo : Byte) : wordOfBytes hi lo = BitVec.ofNat 16 (hi.toNat * 256 + lo.toNat) := by
  apply BitVec.eq_of_toNat_eq
  rw [wordOfBytes, toNat_append_add, BitVec.toNat_ofNat]
  omega

/-- Settles O6: the two bytes at `PC` make the word fetched, and both lie in program space. -/
theorem stepRunsDecodedInstr : Obligations.StepRunsDecodedInstr := by
  intro s i hh hlo hhi hd
  rw [← wordOfBytes_eq_ofNat] at hd
  exact step_exec hh ((fetchable_iff s).2 ⟨hlo, hhi⟩) hd

end Sys2Proof.Machine
end

section
/-! Flow control (40_flow_control.md): the exact targets of the jumps, what CALL pushes and RET pops, and the skips.

CALL and RET have one equation for each side of their stack test. `read_pushed` says what every byte reads as after a
push, and the round trip of CALL and RET is that the two bytes of the push make the word pushed. -/

namespace Sys2Proof.Machine

/-! ### Words written as numbers, and the next fetch -/

/-- A word that a well-formed instruction encodes to decodes to that instruction. -/
theorem decode_of_encode_eq {i : Instr} {w : Word} (hi : i.wellFormed = true) (hw : encode i = w) :
    decode w = .ok i := hw ▸ decodeInvertsEncode i hi

/-- A running core with `PC` outside program space faults at the fetch (R211). -/
theorem step_of_pc_outside {t : State} (hh : t.halted = false) (hpc : t.pc.toNat < 0x200 ∨ 0xE9E < t.pc.toNat) :
    step t = .next (t.faulted (.fetchOutOfRange t.pc) none) := by
  have hf : t.fetchable = false := Bool.eq_false_iff.2 fun h => by
    obtain ⟨hlo, hhi⟩ := (fetchable_iff t).1 h
    omega
  exact step_fetch_fault hh hf

/-! ### Jumps -/

theorem target_toNat (nnn : Addr12) : (target nnn).toNat = nnn.toNat :=
  BitVec.toNat_setWidth_of_le (by decide)

/-- The sum of a byte and a 12-bit address fits in 16 bits. -/
theorem indexedTarget_toNat (nnn : Addr12) (s : State) :
    (indexedTarget nnn s).toNat = (s.getV 0).toNat + nnn.toNat := by
  simp only [indexedTarget, BitVec.toNat_add, BitVec.toNat_setWidth]
  omega

theorem exec_jp (nnn : Addr12) (s : State) : exec (.jp nnn) s = .next { s with pc := target nnn } := rfl

theorem exec_jpV0 (nnn : Addr12) (s : State) : exec (.jpV0 nnn) s = .next { s with pc := indexedTarget nnn s } := rfl

/-- Settles O12: both targets fit in 16 bits, and a jump leaves the core running, so the next fetch tests its target. -/
theorem jumpsSetPcExactly : Obligations.JumpsSetPcExactly := by
  refine ⟨fun nnn => ⟨decode_of_encode_eq rfl (wordNNN_eq 0x1 nnn).symm,
      decode_of_encode_eq rfl (wordNNN_eq 0xB nnn).symm⟩,
    fun nnn s => ⟨_, target_toNat nnn, exec_jp nnn s⟩, fun nnn s => ⟨_, indexedTarget_toNat nnn s, exec_jpV0 nnn s⟩,
    fun i nnn s t hi h hh hpc => step_of_pc_outside ?_ hpc⟩
  obtain rfl | rfl := hi
  · rw [exec_jp] at h; cases h; exact hh
  · rw [exec_jpV0] at h; cases h; exact hh

/-! ### CALL -/

/-- The high byte of a word as a number. -/
theorem extractHigh_eq_ofNat (w : Word) : w.extractLsb' 8 8 = BitVec.ofNat 8 (w.toNat / 256) := by
  rw [BitVec.extractLsb', Nat.shiftRight_eq_div_pow]

/-- The low byte of a word as a number. -/
theorem extractLow_eq_ofNat (w : Word) : w.extractLsb' 0 8 = BitVec.ofNat 8 (w.toNat % 256) := by
  apply BitVec.eq_of_toNat_eq
  rw [BitVec.extractLsb'_toNat, BitVec.toNat_ofNat, Nat.mod_mod, Nat.shiftRight_zero]

/-- Memory after a CALL has pushed its return address. -/
def State.pushed (s : State) : Memory :=
  Memory.writeAll s.mem (s.sp - 2).toNat [(s.pc + 2).extractLsb' 8 8, (s.pc + 2).extractLsb' 0 8]

/-- CALL on a full stack (R102, R213). -/
theorem exec_call_full {nnn : Addr12} {s : State} (h : s.sp.toNat ≤ 0xEA0) :
    exec (.call nnn) s = .next (s.faulted (.stackOverflow s.sp) (some (encode (.call nnn)))) :=
  attempt_error (if_pos h)

section Push
variable {s : State} (hlo : 0xEA0 < s.sp.toNat) (hhi : s.sp.toNat ≤ 0xF00)
include hlo hhi

/-- CALL on a stack with room pushes, and the two bytes lie in memory. -/
theorem exec_call_ok (nnn : Addr12) :
    exec (.call nnn) s = .next { s with pc := target nnn, sp := s.sp - 2, mem := s.pushed } := by
  have hin : (s.sp - 2).toNat + 2 ≤ 0x1000 := by bv_omega
  apply attempt_ok
  simp only [callBody, advancePc_sp, if_neg (Nat.not_le.2 hlo), memWrite2_ok hin]
  rfl

/-- Every byte after a push: the return address big-endian at the new `SP`, and the old byte elsewhere. -/
theorem read_pushed (hw : Memory.wf s.mem = true) (a : Nat) :
    Memory.read s.pushed a =
      if a = s.sp.toNat - 2 then BitVec.ofNat 8 ((s.pc + 2).toNat / 256)
      else if a = s.sp.toNat - 1 then BitVec.ofNat 8 ((s.pc + 2).toNat % 256)
      else s.byte a := by
  have hsp : (s.sp - 2).toNat = s.sp.toNat - 2 := by bv_omega
  have hin : s.sp.toNat - 2 + 2 ≤ 0x1000 := by omega
  rw [State.pushed, hsp, extractHigh_eq_ofNat, extractLow_eq_ofNat]
  split
  next ha => rw [ha]; exact Memory.read_writeAll_at hw hin (k := 0) (by simp)
  next =>
    split
    next ha =>
      rw [ha, show s.sp.toNat - 1 = s.sp.toNat - 2 + 1 by omega]
      exact Memory.read_writeAll_at hw hin (k := 1) (by simp)
    next => exact Memory.read_writeAll_outside hw hin (by rw [List.length_cons, List.length_singleton]; omega)

/-- The word a push leaves at the new `SP` is the return address. -/
theorem word_pushed (hw : Memory.wf s.mem = true) :
    wordOfBytes (Memory.read s.pushed (s.sp - 2).toNat) (Memory.read s.pushed ((s.sp - 2).toNat + 1)) = s.pc + 2 := by
  have h0 : (s.sp - 2).toNat = s.sp.toNat - 2 := by bv_omega
  have h1 : (s.sp - 2).toNat + 1 = s.sp.toNat - 1 := by bv_omega
  rw [read_pushed hlo hhi hw, read_pushed hlo hhi hw, if_pos h0, if_neg (by omega), if_pos h1]
  apply BitVec.eq_of_toNat_eq
  rw [wordOfBytes, toNat_append_add, BitVec.toNat_ofNat, BitVec.toNat_ofNat]
  omega

end Push

/-- Settles O13: each side of the stack test has its equation, and `read_pushed` gives the bytes. -/
theorem callPushesReturnAddress : Obligations.CallPushesReturnAddress := by
  have henc (nnn : Addr12) : encode (.call nnn) = wordNNN 0x2 nnn.toNat := (wordNNN_eq 0x2 nnn).symm
  refine ⟨fun nnn => decode_of_encode_eq rfl (henc nnn), fun nnn s h => henc nnn ▸ exec_call_full h,
    fun nnn s hw hlo hhi => ⟨s.pushed, ?_, read_pushed hlo hhi hw⟩⟩
  rw [exec_call_ok hlo hhi, ← target_toNat, BitVec.ofNat_toNat, BitVec.setWidth_eq]

/-! ### RET -/

/-- RET on an empty stack (R103, R214). -/
theorem exec_ret_empty {h : Nibble} {s : State} (hsp : 0xF00 ≤ s.sp.toNat) :
    exec (.ret h) s = .next (s.faulted (.stackUnderflow s.sp) (some (encode (.ret h)))) :=
  attempt_error (if_pos hsp)

/-- RET below the top of the stack pops, and its two bytes lie in memory. -/
theorem exec_ret_ok {h : Nibble} {s : State} (hsp : s.sp.toNat < 0xF00) :
    exec (.ret h) s = .next { s with pc := s.word s.sp.toNat, sp := s.sp + 2 } := by
  apply attempt_ok
  simp only [retBody, advancePc_sp, if_neg (Nat.not_le.2 hsp), memRead2_ok (show s.sp.toNat + 2 ≤ 0x1000 by omega)]
  rfl

theorem word_toNat (s : State) (a : Nat) : (s.word a).toNat = (s.byte a).toNat * 256 + (s.byte (a + 1)).toNat :=
  toNat_append_add ..

/-- Settles O14: each side of the stack test has its equation, and the word popped is its two bytes big-endian. A state
that still runs faults at its next fetch by its `PC` alone, whatever led to it. -/
theorem retPopsReturnAddress : Obligations.RetPopsReturnAddress := by
  have henc (h : Nibble) : encode (.ret h) = wordXNN 0x0 h.toNat 0xEE := (wordXNN_sel_eq 0x0 h 0xEE).symm
  exact ⟨fun h => decode_of_encode_eq rfl (henc h), fun h s hsp => henc h ▸ exec_ret_empty hsp,
    fun h s hsp => ⟨_, word_toNat s s.sp.toNat, exec_ret_ok hsp⟩, fun h s t _ ht hpc => step_of_pc_outside ht hpc⟩

/-- Settles O15: the two bytes at `SP` are those the CALL pushed, so the word RET pops is the return address. -/
theorem retResumesAfterCall : Obligations.RetResumesAfterCall := by
  intro nnn h s t u hw hlo hhi hcall husp hb0 hb1
  rw [exec_call_ok hlo hhi] at hcall
  cases hcall
  have hpop : u.word u.sp.toNat = s.pc + 2 := by
    rw [State.word, husp, hb0, hb1]
    exact word_pushed hlo hhi hw
  have hsp : u.sp + 2 = s.sp := by rw [husp]; exact BitVec.sub_add_cancel ..
  have hu : u.sp.toNat < 0xF00 := by rw [husp]; bv_omega
  rw [exec_ret_ok hu, hpop, hsp]

/-! ### Skips -/

/-- The fetch advance and a skip: `PC` moves by 4 when the condition holds and by 2 when not. -/
theorem skipIf_advancePc (c : Bool) (s : State) :
    s.advancePc.skipIf c = { s with pc := if c = true then s.pc + 4 else s.pc + 2 } := by
  have h4 : s.pc + 2 + 2 = s.pc + 4 := BitVec.add_assoc ..
  rw [skipIf_eq, advancePc_pc, h4]
  rfl

/-- An instruction that skips when two bytes are equal. -/
theorem skip_of_eq (a b : Byte) (s : State) :
    complete (State.skipIf (a == b)) s = .next { s with pc := if a = b then s.pc + 4 else s.pc + 2 } := by
  simp only [complete_eq, skipIf_advancePc, beq_iff_eq]

/-- An instruction that skips when two bytes differ. -/
theorem skip_of_ne (a b : Byte) (s : State) :
    complete (State.skipIf (a != b)) s = .next { s with pc := if a = b then s.pc + 2 else s.pc + 4 } := by
  simp only [complete_eq, skipIf_advancePc, bne_iff_ne, ne_eq, ite_not]

/-- Settles O16: each skip compares registers that the fetch advance leaves as they are. -/
theorem skipsMovePcOnly : Obligations.SkipsMovePcOnly :=
  ⟨fun x nn s => ⟨decode_of_encode_eq rfl (wordXNN_eq 0x3 x nn).symm, skip_of_eq (s.getV x) nn s⟩,
    fun x nn s => ⟨decode_of_encode_eq rfl (wordXNN_eq 0x4 x nn).symm, skip_of_ne (s.getV x) nn s⟩,
    fun x y l s => ⟨decode_of_encode_eq rfl (wordXYN_eq 0x5 x y l).symm, skip_of_eq (s.getV x) (s.getV y) s⟩,
    fun x y l s => ⟨decode_of_encode_eq rfl (wordXYN_eq 0x9 x y l).symm, skip_of_ne (s.getV x) (s.getV y) s⟩⟩

end Sys2Proof.Machine
end

section
/-! Register loads, arithmetic, logic, shifts and random (41_register_alu.md): what each instruction writes to `V[x]`
and to `VF`, and which write is last.

ADD, SUB and SUBN write the result and then the flag; SHR and SHL write the flag first and read `V[x]` after it. What
each instruction leaves in the registers is one lemma (`added_spec`, `subtracted_spec`, `shrBody_spec`, `shlBody_spec`). -/

namespace Sys2Proof.Machine

/-! ### One register write -/

/-- Settles O17: each instruction is one register write, and a sum of bytes wraps at 256. -/
theorem immediateLoadAndAdd : Obligations.ImmediateLoadAndAdd :=
  ⟨fun x nn _ => ⟨decode_of_encode_eq rfl (wordXNN_eq 0x6 x nn).symm, rfl⟩,
    fun x nn s => ⟨decode_of_encode_eq rfl (wordXNN_eq 0x7 x nn).symm, s.getV x + nn, BitVec.toNat_add .., rfl⟩⟩

/-- Settles O18: each instruction is one register write, and the bitwise operations act on every bit alone. -/
theorem copyAndLogic : Obligations.CopyAndLogic := fun x y s =>
  ⟨⟨decode_of_encode_eq rfl (wordXYN_eq 0x8 x y 0).symm, rfl⟩,
    ⟨decode_of_encode_eq rfl (wordXYN_eq 0x8 x y 1).symm, s.getV x ||| s.getV y, fun _ => BitVec.getLsbD_or, rfl⟩,
    ⟨decode_of_encode_eq rfl (wordXYN_eq 0x8 x y 2).symm, s.getV x &&& s.getV y, fun _ => BitVec.getLsbD_and, rfl⟩,
    ⟨decode_of_encode_eq rfl (wordXYN_eq 0x8 x y 3).symm, s.getV x ^^^ s.getV y,
      fun _ => BitVec.getLsbD_xor, rfl⟩⟩

/-! ### The flags as numbers -/

theorem carryFlag_toNat (a b : Byte) : (carryFlag a b).toNat = if a.toNat + b.toNat > 255 then 1 else 0 := by
  rw [carryFlag, flagByte_toNat]
  simp only [decide_eq_true_eq]

theorem noBorrowFlag_toNat (a b : Byte) : (noBorrowFlag a b).toNat = if a.toNat ≥ b.toNat then 1 else 0 := by
  rw [noBorrowFlag, flagByte_toNat]
  simp only [decide_eq_true_eq]

/-- A bit as a flag is that binary digit. -/
theorem flagByte_getLsbD_toNat (a : Byte) (k : Nat) : (flagByte (a.getLsbD k)).toNat = a.toNat / 2 ^ k % 2 := by
  rw [flagByte_toNat, BitVec.getLsbD, ← Nat.toNat_testBit]
  cases a.toNat.testBit k <;> rfl

theorem lowBitFlag_toNat (a : Byte) : (lowBitFlag a).toNat = a.toNat % 2 := by
  rw [lowBitFlag, flagByte_getLsbD_toNat, Nat.pow_zero, Nat.div_one]

theorem highBitFlag_toNat (a : Byte) : (highBitFlag a).toNat = a.toNat / 128 := by
  have := a.isLt
  rw [highBitFlag, flagByte_getLsbD_toNat]
  omega

/-! ### The result, then the flag -/

section ResultThenFlag
variable {s : State} {x r : RegIdx} {b c : Byte}

/-- A flag written last leaves the result in any other destination. -/
theorem getV_result_of_ne (hx : x ≠ VF) : ((s.setV x b).setV VF c).getV x = b := by
  rw [getV_setV_of_ne _ _ _ _ hx, getV_setV_same]

/-- Two register writes leave every third register. -/
theorem getV_setV_setV_of_ne {y : RegIdx} (hx : r ≠ x) (hy : r ≠ y) :
    ((s.setV x b).setV y c).getV r = s.getV r := by
  rw [getV_setV_of_ne _ _ _ _ hy, getV_setV_of_ne _ _ _ _ hx]

end ResultThenFlag

/-- A difference of bytes is the difference of the numbers modulo 256. -/
theorem sub_toNat_int (a b : Byte) : ((a - b).toNat : Int) = (a.toNat - b.toNat : Int) % 256 := by
  rw [BitVec.toNat_sub]
  omega

/-- The state after ADD Vx,Vy: the sum, then the carry (R126). -/
def State.added (s : State) (x y : RegIdx) : State :=
  (s.setV x (s.getV x + s.getV y)).setV VF (carryFlag (s.getV x) (s.getV y))

theorem exec_add (x y : RegIdx) (s : State) : exec (.add x y) s = .next (s.advancePc.added x y) := rfl

/-- The registers after an addition. -/
theorem added_spec (s : State) (x y : RegIdx) :
    ((s.added x y).getV VF).toNat = (if (s.getV x).toNat + (s.getV y).toNat > 255 then 1 else 0) ∧
    (x ≠ VF → ((s.added x y).getV x).toNat = ((s.getV x).toNat + (s.getV y).toNat) % 256) ∧
    ∀ r : RegIdx, r ≠ x → r ≠ VF → (s.added x y).getV r = s.getV r := by
  refine ⟨?_, fun hx => ?_, fun r => getV_setV_setV_of_ne⟩
  · rw [State.added, getV_setV_same, carryFlag_toNat]
  · rw [State.added, getV_result_of_ne hx, BitVec.toNat_add]

/-- Settles O19: the flag is written last, so `VF` holds the carry also when it is the destination. -/
theorem addWritesSumThenCarry : Obligations.AddWritesSumThenCarry := fun x y s =>
  ⟨decode_of_encode_eq rfl (wordXYN_eq 0x8 x y 4).symm, (s.added x y).v, exec_add x y s, added_spec s x y⟩

/-- The state after a subtraction `a - b` into `V[x]`: the difference, then "no borrow" (R127, R129). -/
def State.subtracted (s : State) (x : RegIdx) (a b : Byte) : State := (s.setV x (a - b)).setV VF (noBorrowFlag a b)

theorem exec_sub (x y : RegIdx) (s : State) :
    exec (.sub x y) s = .next (s.advancePc.subtracted x (s.getV x) (s.getV y)) := rfl

theorem exec_subn (x y : RegIdx) (s : State) :
    exec (.subn x y) s = .next (s.advancePc.subtracted x (s.getV y) (s.getV x)) := rfl

/-- The registers after a subtraction. -/
theorem subtracted_spec (s : State) (x : RegIdx) (a b : Byte) :
    ((s.subtracted x a b).getV VF).toNat = (if a.toNat ≥ b.toNat then 1 else 0) ∧
    (x ≠ VF → (((s.subtracted x a b).getV x).toNat : Int) = (a.toNat - b.toNat : Int) % 256) ∧
    ∀ r : RegIdx, r ≠ x → r ≠ VF → (s.subtracted x a b).getV r = s.getV r := by
  refine ⟨?_, fun hx => ?_, fun r => getV_setV_setV_of_ne⟩
  · rw [State.subtracted, getV_setV_same, noBorrowFlag_toNat]
  · rw [State.subtracted, getV_result_of_ne hx, sub_toNat_int]

/-- Settles O20: SUBN is SUB with the operands swapped. -/
theorem subtractsWriteDifferenceThenNoBorrow : Obligations.SubtractsWriteDifferenceThenNoBorrow := fun x y s =>
  ⟨⟨decode_of_encode_eq rfl (wordXYN_eq 0x8 x y 5).symm, (s.subtracted x (s.getV x) (s.getV y)).v, exec_sub x y s,
      subtracted_spec s x (s.getV x) (s.getV y)⟩,
    ⟨decode_of_encode_eq rfl (wordXYN_eq 0x8 x y 7).symm, (s.subtracted x (s.getV y) (s.getV x)).v, exec_subn x y s,
      subtracted_spec s x (s.getV y) (s.getV x)⟩⟩

/-! ### The flag, then the shift -/

/-- The form of SHR and SHL (D9): the flag first, then `V[x]` is read again and shifted. -/
def flagThenShift (c : Byte) (shift : Byte → Byte) (x : RegIdx) (s : State) : State :=
  (s.setV VF c).setV x (shift ((s.setV VF c).getV x))

theorem shrBody_eq (x : RegIdx) (s : State) :
    shrBody x s = flagThenShift (lowBitFlag (s.getV x)) (· >>> 1) x s := rfl

theorem shlBody_eq (x : RegIdx) (s : State) :
    shlBody x s = flagThenShift (highBitFlag (s.getV x)) (· <<< 1) x s := rfl

section FlagThenShift
variable {c : Byte} {shift : Byte → Byte} {x r : RegIdx} {s : State}

/-- For `x` other than 15 the flag stays. -/
theorem getV_VF_flagThenShift (hx : x ≠ VF) : (flagThenShift c shift x s).getV VF = c := by
  rw [flagThenShift, getV_setV_of_ne _ _ _ _ hx.symm, getV_setV_same]

/-- For `x` other than 15 the operand is the old `V[x]`. -/
theorem getV_flagThenShift (hx : x ≠ VF) : (flagThenShift c shift x s).getV x = shift (s.getV x) := by
  rw [flagThenShift, getV_setV_same, getV_setV_of_ne _ _ _ _ hx]

/-- For `x = 15` the operand is the flag. -/
theorem getV_flagThenShift_VF : (flagThenShift c shift VF s).getV VF = shift c := by
  rw [flagThenShift, getV_setV_same, getV_setV_same]

theorem getV_flagThenShift_of_ne (hr : r ≠ x) (hF : r ≠ VF) : (flagThenShift c shift x s).getV r = s.getV r :=
  getV_setV_setV_of_ne hF hr

end FlagThenShift

theorem ushiftRight_one_toNat (a : Byte) : (a >>> 1).toNat = a.toNat / 2 := by
  rw [BitVec.toNat_ushiftRight, Nat.shiftRight_eq_div_pow, Nat.pow_one]

theorem shiftLeft_one_toNat (a : Byte) : (a <<< 1).toNat = a.toNat * 2 % 256 := by
  rw [BitVec.toNat_shiftLeft, Nat.shiftLeft_eq, Nat.pow_one]

/-- Nothing is left of a flag shifted right. -/
theorem lowBitFlag_ushiftRight_one (a : Byte) : lowBitFlag a >>> 1 = 0 := by
  apply BitVec.eq_of_toNat_eq
  rw [ushiftRight_one_toNat, lowBitFlag_toNat]
  exact Nat.div_eq_of_lt (Nat.mod_lt _ Nat.two_pos)

/-- A flag shifted left stays inside its byte. -/
theorem highBitFlag_shiftLeft_one_toNat (a : Byte) : (highBitFlag a <<< 1).toNat = 2 * (a.toNat / 128) := by
  have := a.isLt
  rw [shiftLeft_one_toNat, highBitFlag_toNat]
  omega

/-- The registers after SHR Vx (R128). -/
theorem shrBody_spec (x : RegIdx) (s : State) :
    (x ≠ VF → ((shrBody x s).getV VF).toNat = (s.getV x).toNat % 2 ∧
      ((shrBody x s).getV x).toNat = (s.getV x).toNat / 2) ∧
    (x = VF → (shrBody x s).getV VF = 0) ∧
    ∀ r : RegIdx, r ≠ x → r ≠ VF → (shrBody x s).getV r = s.getV r := by
  rw [shrBody_eq]
  refine ⟨fun hx => ⟨?_, ?_⟩, ?_, fun r => getV_flagThenShift_of_ne⟩
  · rw [getV_VF_flagThenShift hx, lowBitFlag_toNat]
  · rw [getV_flagThenShift hx, ushiftRight_one_toNat]
  · rintro rfl
    rw [getV_flagThenShift_VF, lowBitFlag_ushiftRight_one]

/-- The registers after SHL Vx (R130). -/
theorem shlBody_spec (x : RegIdx) (s : State) :
    (x ≠ VF → ((shlBody x s).getV VF).toNat = (s.getV x).toNat / 128 ∧
      ((shlBody x s).getV x).toNat = (s.getV x).toNat * 2 % 256) ∧
    (x = VF → ((shlBody x s).getV VF).toNat = 2 * ((s.getV VF).toNat / 128)) ∧
    ∀ r : RegIdx, r ≠ x → r ≠ VF → (shlBody x s).getV r = s.getV r := by
  rw [shlBody_eq]
  refine ⟨fun hx => ⟨?_, ?_⟩, ?_, fun r => getV_flagThenShift_of_ne⟩
  · rw [getV_VF_flagThenShift hx, highBitFlag_toNat]
  · rw [getV_flagThenShift hx, shiftLeft_one_toNat]
  · rintro rfl
    rw [getV_flagThenShift_VF, highBitFlag_shiftLeft_one_toNat]

theorem exec_shr (x : RegIdx) (l : Nibble) (s : State) : exec (.shr x l) s = .next (shrBody x s.advancePc) := rfl

theorem exec_shl (x : RegIdx) (l : Nibble) (s : State) : exec (.shl x l) s = .next (shlBody x s.advancePc) := rfl

/-- Settles O21: each shift writes the registers of its body alone. -/
theorem shiftsWriteFlagThenShift : Obligations.ShiftsWriteFlagThenShift := fun x l s =>
  ⟨⟨decode_of_encode_eq rfl (wordXMN_eq 0x8 x l 6).symm, (shrBody x s).v, exec_shr x l s, shrBody_spec x s⟩,
    ⟨decode_of_encode_eq rfl (wordXMN_eq 0x8 x l 0xE).symm, (shlBody x s).v, exec_shl x l s, shlBody_spec x s⟩⟩

/-! ### Random -/

theorem drawnByte_lt {nn : Byte} (hn : nn ≠ 0) (s : State) : (drawnByte nn s).toNat < nn.toNat := by
  have hpos : 0 < nn.toNat := Nat.pos_of_ne_zero fun h => hn (BitVec.eq_of_toNat_eq h)
  rw [drawnByte, BitVec.toNat_ofNat]
  exact (Nat.mod_le _ _).trans_lt (Nat.mod_lt _ hpos)

/-- RND with an empty range (R131, R218). -/
theorem exec_rnd_zero (x : RegIdx) (s : State) :
    exec (.rnd x 0) s = .next (s.faulted (.randomModulusZero 0) (some (encode (.rnd x 0)))) :=
  attempt_error (body := rndBody x 0) (if_pos rfl)

/-- RND with a range makes one draw. -/
theorem exec_rnd_ok (x : RegIdx) {nn : Byte} (hn : nn ≠ 0) (s : State) :
    exec (.rnd x nn) s =
      .next { s with pc := s.pc + 2, v := s.v.set x.val (drawnByte nn s), draws := s.draws + 1 } :=
  attempt_ok (if_neg hn)

/-- Settles O22: the two sides of the test for `nn = 0` have their equations, and a draw lies in its range. -/
theorem rndDrawsBelowImmediate : Obligations.RndDrawsBelowImmediate := by
  have henc (x : RegIdx) (nn : Byte) : encode (.rnd x nn) = wordXNN 0xC x.val nn.toNat := (wordXNN_eq 0xC x nn).symm
  exact ⟨fun x nn => decode_of_encode_eq rfl (henc x nn), fun x s => henc x 0 ▸ exec_rnd_zero x s,
    fun x nn s hn => ⟨drawnByte nn s, s.draws + 1, drawnByte_lt hn s, exec_rnd_ok x hn s⟩⟩

end Sys2Proof.Machine
end

section
/-! Keypad and timers (42_keypad_timers.md): the key tests, the wait of GETK, the timer instructions, and what every
operation of the host keeps.

KEYD and KEYU are one test with two senses (`keyTest`). GETK has one equation for each transition of R156, and the
statements about several steps cite those. -/

namespace Sys2Proof.Machine

/-! ### The key tests -/

/-- The execute phase of KEYD and KEYU: skip when the key named by `V[x]` is as `want` says (R150, R151). -/
def keyTest (want : Bool → Bool) (x : RegIdx) (s : State) : Except Fault State :=
  (keyOperand x s).map fun k => s.skipIf (want (s.keyAt k))

theorem keydBody_eq (x : RegIdx) : keydBody x = keyTest id x := by
  funext s
  rw [keydBody, keyTest]
  cases keyOperand x s <;> rfl

theorem keyuBody_eq (x : RegIdx) : keyuBody x = keyTest not x := by
  funext s
  rw [keyuBody, keyTest]
  cases keyOperand x s <;> rfl

theorem exec_keyd (x : RegIdx) (s : State) : exec (.keyd x) s = attempt (.keyd x) (keyTest id x) s :=
  keydBody_eq x ▸ rfl

theorem exec_keyu (x : RegIdx) (s : State) : exec (.keyu x) s = attempt (.keyu x) (keyTest not x) s :=
  keyuBody_eq x ▸ rfl

section KeyTest
variable {want : Bool → Bool} {x : RegIdx} {s : State} (i : Instr)

/-- A register that names no key (R216). -/
theorem attempt_keyTest_error (h : 15 < (s.getV x).toNat) :
    attempt i (keyTest want x) s = .next (s.faulted (.keyIndexOutOfRange (s.getV x)) (some (encode i))) :=
  attempt_error (by rw [keyTest, keyOperand_error (s := s.advancePc) h]; rfl)

/-- A register that names the key `k`. -/
theorem attempt_keyTest_ok {k : RegIdx} (h : (s.getV x).toNat = k.val) :
    attempt i (keyTest want x) s =
      .next { s with pc := if want s.keys[k.val] = true then s.pc + 4 else s.pc + 2 } := by
  have hle : (s.getV x).toNat ≤ 15 := by omega
  apply attempt_ok
  rw [keyTest, keyOperand_ok (s := s.advancePc) hle, advancePc_getV, h]
  simp only [Except.map, advancePc_keyAt, keyAt_of_lt s k.isLt, skipIf_advancePc]

end KeyTest

/-- Settles O23: the two instructions are one key test in two senses. -/
theorem keyTestsSkipOnKeyState : Obligations.KeyTestsSkipOnKeyState := by
  have hd (x : RegIdx) : encode (.keyd x) = wordXNN 0xE x.val 0x9E := (wordXNN_eq 0xE x 0x9E).symm
  have hu (x : RegIdx) : encode (.keyu x) = wordXNN 0xE x.val 0xA1 := (wordXNN_eq 0xE x 0xA1).symm
  refine ⟨fun x => ⟨decode_of_encode_eq rfl (hd x), decode_of_encode_eq rfl (hu x)⟩, fun x s h => ⟨?_, ?_⟩,
    fun x k s h => ⟨?_, ?_⟩⟩
  · rw [exec_keyd, attempt_keyTest_error _ h, hd]
  · rw [exec_keyu, attempt_keyTest_error _ h, hu]
  · rw [exec_keyd, attempt_keyTest_ok _ h, id]
  · rw [exec_keyu, attempt_keyTest_ok _ h]
    cases s.keys[k.val] <;> rfl

/-! ### GETK: the four transitions -/

/-- The state of a GETK Vx that has latched the key `k`: ARMED (R155). -/
def State.latched (s : State) (x k : RegIdx) : State :=
  { s with v := s.v.set x.val (BitVec.ofNat 8 k.val), waitingRelease := true, blocked := true }

/-- A latched key fits its register. -/
theorem latched_getV_toNat (s : State) (x k : RegIdx) : ((s.latched x k).getV x).toNat = k.val := by
  rw [State.getV, State.latched, Vector.getElem_set_self, BitVec.toNat_ofNat]
  omega

section Getk
variable {x k : RegIdx} {s : State}

theorem exec_getk_unlatched (hw : s.waitingRelease = false) : exec (.getk x) s = .next (getkIdle x s.advancePc) :=
  congrArg Host.Outcome.next (if_neg (Bool.eq_false_iff.1 hw))

theorem exec_getk_latched (hw : s.waitingRelease = true) : exec (.getk x) s = .next (getkArmed x s.advancePc) :=
  congrArg Host.Outcome.next (if_pos hw)

/-- The latched key is read from `V[x]` (R47). -/
theorem keyAt_latched (hv : (s.getV x).toNat = k.val) : s.keyAt (s.getV x).toNat = s.keys[k.val] := by
  rw [hv, keyAt_of_lt s k.isLt]

/-- IDLE_WAIT with no key pressed stays (R156). -/
theorem exec_getk_noKey (hw : s.waitingRelease = false) (hk : ∀ j : RegIdx, s.keys[j.val] = false) :
    exec (.getk x) s = .next { s with blocked := true } := by
  have hnone : lowestPressed s.advancePc = none := lowestPressed_none hk
  rw [exec_getk_unlatched hw, getkIdle, hnone]
  simp only [State.repeatInstr, State.advancePc, add_two_sub_two]

/-- IDLE_WAIT with `k` the lowest pressed key latches it (R156). -/
theorem exec_getk_latches (hw : s.waitingRelease = false) (hk : s.keys[k.val] = true)
    (hlow : ∀ j : RegIdx, j < k → s.keys[j.val] = false) :
    exec (.getk x) s = .next (s.latched x k) := by
  have hsome : lowestPressed s.advancePc = some k := lowestPressed_some hk hlow
  rw [exec_getk_unlatched hw, getkIdle, hsome]
  simp only [State.repeatInstr, State.setV, State.advancePc, add_two_sub_two, State.latched]

/-- ARMED with the latched key held stays (R156). -/
theorem exec_getk_held (hw : s.waitingRelease = true) (hv : (s.getV x).toNat = k.val) (hk : s.keys[k.val] = true) :
    exec (.getk x) s = .next s := by
  have hkey : s.keyAt (s.getV x).toNat = true := (keyAt_latched hv).trans hk
  rw [exec_getk_latched hw, getkArmed, advancePc_keyAt, advancePc_getV, if_pos hkey]
  simp only [State.repeatInstr, State.advancePc, add_two_sub_two]

/-- ARMED with the latched key released completes (R156). -/
theorem exec_getk_released (hw : s.waitingRelease = true) (hv : (s.getV x).toNat = k.val)
    (hk : s.keys[k.val] = false) :
    exec (.getk x) s = .next { s with pc := s.pc + 2, waitingRelease := false, blocked := false } := by
  have hkey : s.keyAt (s.getV x).toNat = false := (keyAt_latched hv).trans hk
  rw [exec_getk_latched hw, getkArmed, advancePc_keyAt, advancePc_getV, if_neg (Bool.eq_false_iff.1 hkey)]
  rfl

end Getk

/-- Settles O24: one equation for each transition. -/
theorem getkTransitions : Obligations.GetkTransitions :=
  ⟨fun x => decode_of_encode_eq rfl (wordXNN_eq 0xF x 0x0A).symm, fun _ _ => exec_getk_noKey,
    fun _ _ _ => exec_getk_latches, fun _ _ _ => exec_getk_held, fun _ _ _ => exec_getk_released⟩

/-! ### GETK over several steps -/

/-- A step that leaves the core running returns `Ok` (R227). -/
theorem stepResult_ok {s t : State} (hs : s.halted = false) (h : step s = .next t) (ht : t.halted = false) :
    stepResult s = .ok := by
  rw [stepResult, h, resultOf, if_neg (Bool.eq_false_iff.1 hs)]
  simp only [ht]

/-- An unlatched GETK with no key pressed sets `blocked` alone, and its step returns `Ok`. -/
theorem step_getk_noKey {x : RegIdx} {s : State} (hr : s.runsNext (.getk x)) (hw : s.waitingRelease = false)
    (hk : ∀ j : RegIdx, s.keys[j.val] = false) :
    step s = .next { s with blocked := true } ∧ stepResult s = .ok := by
  have hh : s.halted = false := hr.1
  have h : step s = .next { s with blocked := true } := (step_of_runsNext hr).trans (exec_getk_noKey hw hk)
  exact ⟨h, stepResult_ok hh h hh⟩

/-- A step of the model is the first step of a run of the core. -/
theorem run_succ {n : Nat} {s t : State} (h : step s = .next t) :
    Host.Core.run Sys2Proof.core (n + 1) s = Host.Core.run Sys2Proof.core n t := by
  have hc : Sys2Proof.core.step s = .next t := h
  simp only [Host.Core.run, hc]

/-- A core whose step returns `Ok` and changes nothing stays as it is for any number of steps. -/
theorem run_of_step_self {s : State} (h : step s = .next s) (hok : stepResult s = .ok) (n : Nat) :
    SafeRun n s ∧
      Host.Core.run Sys2Proof.core n s = (Host.Outcome.next s : Host.Outcome State Fault Refusal) := by
  induction n with
  | zero => exact ⟨trivial, rfl⟩
  | succ n ih =>
    obtain ⟨hsafe, hrun⟩ := ih
    exact ⟨⟨hok, s, h, hsafe⟩, (run_succ h).trans hrun⟩

/-- Settles O25: the premises do not look at `blocked`, so they hold again after the first step, and every later step
changes nothing. -/
theorem getkWaitsWhileNoKeyPressed : Obligations.GetkWaitsWhileNoKeyPressed := by
  intro n x s hr hw hk
  obtain ⟨hfirst, hok⟩ := step_getk_noKey hr hw hk
  obtain ⟨hstay, hok'⟩ := step_getk_noKey (s := { s with blocked := true }) hr hw hk
  obtain ⟨hsafe, hrun⟩ := run_of_step_self hstay hok' n
  exact ⟨⟨hok, _, hfirst, hsafe⟩, (run_succ hfirst).trans hrun⟩

/-- The state with one bit of the keypad written. -/
def State.withKey (s : State) (k : RegIdx) (pressed : Bool) : State := { s with keys := s.keys.set k.val pressed }

/-- `SetKey` on a key of the keypad (R230). -/
theorem setKey_key (k : RegIdx) (pressed : Bool) (s : State) : setKey k.val pressed s = .next (s.withKey k pressed) :=
  dif_pos k.isLt

section WithKey
variable {s : State} {k : RegIdx} {pressed : Bool}

theorem withKey_keys_same : (s.withKey k pressed).keys[k.val] = pressed := Vector.getElem_set_self k.isLt

theorem withKey_keys_of_ne {j : RegIdx} (h : j ≠ k) : (s.withKey k pressed).keys[j.val] = s.keys[j.val] :=
  Vector.getElem_set_ne k.isLt j.isLt (Fin.val_ne_of_ne h.symm)

/-- The press of a key that was up, undone by its release. -/
theorem withKey_press_release (h : s.keys[k.val] = false) : (s.withKey k true).withKey k false = s := by
  have hkeys : (s.keys.set k.val true).set k.val false = s.keys := by
    rw [Vector.set_set, ← h, Vector.set_getElem_self]
  simp only [State.withKey, hkeys]

/-- The keypad plays no part in what the next step runs. -/
theorem runsNext_withKey {i : Instr} (h : s.runsNext i) : (s.withKey k pressed).runsNext i := h

/-- Latching a key neither reads nor writes the keypad. -/
theorem latched_withKey (x : RegIdx) : (s.latched x k).withKey k pressed = (s.withKey k pressed).latched x k := rfl

theorem runsNext_latched {x : RegIdx} {i : Instr} (h : s.runsNext i) : (s.latched x k).runsNext i := h

end WithKey

/-- Settles O26: the press makes `k` the lowest pressed key, so the first step latches it; after the release the keypad is
as before, so the second step completes. -/
theorem pressThenReleaseCompletesGetk : Obligations.PressThenReleaseCompletesGetk := by
  intro x k s hr hw hk
  have hlow (j : RegIdx) (hj : j < k) : (s.withKey k true).keys[j.val] = false :=
    (withKey_keys_of_ne hj.ne).trans (hk j)
  have hlatch : step (s.withKey k true) = .next ((s.withKey k true).latched x k) :=
    (step_of_runsNext (runsNext_withKey hr)).trans (exec_getk_latches hw withKey_keys_same hlow)
  have hrelease : setKey k.val false ((s.withKey k true).latched x k) = .next (s.latched x k) := by
    rw [setKey_key, latched_withKey, withKey_press_release (hk k)]
  refine ⟨s.withKey k true, (s.withKey k true).latched x k, s.latched x k, setKey_key k true s, hlatch, hrelease, ?_⟩
  rw [step_of_runsNext (runsNext_latched hr), exec_getk_released rfl (latched_getV_toNat s x k) (hk k), ← hw]
  rfl

/-! ### Timers -/

/-- A timer in the range of R40 reads as its integer part (R160). -/
theorem truncated_toNat {t : Rat} (h0 : 0 ≤ t) (h255 : t ≤ 255) : ((truncated t).toNat : Int) = ⌊t⌋ := by
  have hlo : 0 ≤ ⌊t⌋ := Int.floor_nonneg.2 h0
  have hhi : ⌊t⌋ < 256 := Int.floor_lt.2 (by norm_num; linarith)
  rw [show truncated t = BitVec.ofInt 8 ⌊t⌋ from rfl, BitVec.toNat_ofInt]
  omega

/-- Settles O27: the byte read is the floor of `DT`, and the bounds are the floor's. -/
theorem timerAccess : Obligations.TimerAccess := by
  refine ⟨fun x => ⟨decode_of_encode_eq rfl (wordXNN_eq 0xF x 0x07).symm,
      decode_of_encode_eq rfl (wordXNN_eq 0xF x 0x15).symm, decode_of_encode_eq rfl (wordXNN_eq 0xF x 0x18).symm⟩,
    fun x s h0 h255 => ⟨truncated s.dt, ?_, ?_, rfl⟩, fun x s => rfl, fun x s => ⟨rfl, fun t h => ?_⟩⟩
  · rw [← Int.cast_natCast, truncated_toNat h0 h255]
    exact Int.floor_le _
  · rw [← Int.cast_natCast, truncated_toNat h0 h255]
    exact Int.lt_floor_add_one _
  · cases h
    rw [State.soundActive, decide_eq_true_eq]
    exact Nat.cast_pos

/-! ### What the host's operations keep -/

theorem countDown_range {t d : Rat} (hd : 0 ≤ d) (ht : 0 ≤ t ∧ t ≤ 255) : 0 ≤ countDown t d ∧ countDown t d ≤ 255 :=
  ⟨le_max_left .., max_le (by norm_num) ((sub_le_self t hd).trans ht.2)⟩

/-- Counting the timers down keeps the invariant, for any TIMER_SCALE. -/
theorem tickAt_keeps_inv {scale dt : Rat} {s t : State} (hs : 0 ≤ scale) (h : Inv s)
    (ht : tickAt scale dt s = .next t) : Inv t := by
  rw [tickAt] at ht
  split at ht
  · cases ht
  next hdt =>
    have hd : 0 ≤ scale * dt := mul_nonneg hs (not_lt.1 hdt)
    cases ht
    exact { h with dt_range := countDown_range hd h.dt_range, st_range := countDown_range hd h.st_range }

/-- The keypad is outside the invariant. -/
theorem setKey_keeps_inv {k : Nat} {pressed : Bool} {s t : State} (h : Inv s) (ht : setKey k pressed s = .next t) :
    Inv t := by
  rw [setKey] at ht
  split at ht
  · cases ht; exact { h with }
  · cases ht

/-- The reset state meets the invariant with any canonical memory and any count of draws. -/
theorem inv_of_reset {m : Memory} (hm : Memory.wf m = true) (d : Nat) :
    Inv { State.reset with mem := m, draws := d } :=
  { resetSatisfiesInv with memory_canonical := hm, blocked_at_getk := nofun }

/-- `Reset(image)` establishes the invariant, for any legal font. -/
theorem inv_of_resetWithAt {font : Font} {image : List Byte} {s t : State} (hf : font.wf = true)
    (ht : resetWithAt font image s = .next t) : Inv t := by
  by_cases hi : image.length ≤ 3232
  · rw [resetWithAt_ok hi] at ht
    cases ht
    exact inv_of_reset (Memory.wf_loaded hf hi) s.draws
  · rw [resetWithAt_refused (not_le.1 hi)] at ht
    cases ht

/-- Every operation of the host keeps the invariant, with any legal font and any TIMER_SCALE. -/
theorem performAt_keeps_inv {p : Params} {op : HostOp} {s t : State} (hf : p.font.wf = true) (h : Inv s)
    (ht : performAt p op s = .next t) : Inv t := by
  cases op with
  | step => exact stepAt_keeps_inv h ht
  | tick dt => exact tickAt_keeps_inv p.timerScale.property h ht
  | setKey k pressed => exact setKey_keeps_inv h ht
  | readFramebuffer | readStatus => cases ht; exact h
  | clearDisplayChanged => cases ht; exact { h with }
  | reset image => exact inv_of_resetWithAt hf ht
  | halt => cases ht; exact { h with fault_halts := fun _ => rfl }

/-- Every reachable state meets the invariant, by induction on the run. -/
theorem inv_of_reachable {p : Params} {s : State} (hf : p.font.wf = true) (h : Reachable p s) : Inv s := by
  induction h with
  | start => exact inv_of_reset (wf_resetAt hf) 0
  | next s t op _ hop ih => exact performAt_keeps_inv hf ih hop

/-- Settles O47: the invariant puts a blocked core at a GETK, whose meaning no font reaches. -/
theorem reachableStatesWaitOnlyAtGetk : Obligations.ReachableStatesWaitOnlyAtGetk := by
  refine ⟨fun p s hf h => inv_of_reachable hf h, fun p s hf h hb hh => ?_⟩
  obtain ⟨x, ⟨hfetch, hd⟩, -⟩ := (inv_of_reachable hf h).blocked_at_getk hb
  refine ⟨x, ⟨hh, hfetch, hd⟩, ?_⟩
  calc stepAt p.font s
    _ = execAt p.font (.getk x) s := stepBy_run hh hfetch hd
    _ = exec (.getk x) s := execAt_eq_exec p.font (fun _ h => Instr.noConfusion h) s

end Sys2Proof.Machine
end

section
/-! Index register and memory (43_memory_index.md): what LD I, ADD I,Vx and LD F,Vx write to `I`, and what BCD and the
bulk register transfers move.

BCD and LD [I],Vx are one store of a list of bytes at `I`, with one equation for each side of the bounds check, and so is
LD Vx,[I] as a load. The statements then say what the bytes of the list are. -/

namespace Sys2Proof.Machine

/-! ### The index register -/

theorem exec_ldI (nnn : Addr12) (s : State) : exec (.ldI nnn) s = .next { s with pc := s.pc + 2, i := nnn } := rfl

theorem exec_addI (x : RegIdx) (s : State) :
    exec (.addI x) s = .next { s with pc := s.pc + 2, i := s.i + (s.getV x).zeroExtend 12 } := rfl

/-- A sum of an index and a byte wraps at 0x1000 (R171). -/
theorem index_add_byte_toNat (i : Addr12) (b : Byte) : (i + b.zeroExtend 12).toNat = (i.toNat + b.toNat) % 0x1000 := by
  rw [BitVec.toNat_add, BitVec.toNat_setWidth_of_le (by decide)]

/-- Settles O30: a sum wraps, and the glyph of a digit below 16 lies below 0x1000, so its address is exact. -/
theorem indexRegisterWrites : Obligations.IndexRegisterWrites := by
  have hadd (x : RegIdx) : encode (.addI x) = wordXNN 0xF x.val 0x1E := (wordXNN_eq 0xF x 0x1E).symm
  have hfont (x : RegIdx) : encode (.ldF x) = wordXNN 0xF x.val 0x29 := (wordXNN_eq 0xF x 0x29).symm
  refine ⟨fun nnn s => ⟨decode_of_encode_eq rfl (wordNNN_eq 0xA nnn).symm, exec_ldI nnn s⟩,
    fun x => ⟨decode_of_encode_eq rfl (hadd x), decode_of_encode_eq rfl (hfont x)⟩,
    fun x s => ⟨_, index_add_byte_toNat s.i (s.getV x), exec_addI x s⟩, fun x s h => hfont x ▸ execLdFAt_error h,
    fun x s h => ⟨_, ?_, execLdFAt_ok h⟩⟩
  exact Nat.mod_eq_of_lt (show 0x000 + 5 * (s.getV x).toNat < 0x1000 by omega)

/-! ### The data stores -/

section Store
variable {bs : List Byte} {s : State} (i : Instr)

/-- A store at `I` that fits writes its bytes. -/
theorem attempt_storeBytes_ok (hfit : s.i.toNat + bs.length ≤ 0x1000) :
    attempt i (storeBytes s.i.toNat bs) s =
      .next { s with pc := s.pc + 2, mem := Memory.writeAll s.mem s.i.toNat bs } :=
  attempt_ok (storeBytes_ok bs _ _ hfit)

/-- A store at `I` that leaves memory faults at the first address outside it (R217). -/
theorem attempt_storeBytes_error (hout : 0x1000 < s.i.toNat + bs.length) :
    attempt i (storeBytes s.i.toNat bs) s = .next (s.faulted (.memoryOutOfRange 0x1000) (some (encode i))) :=
  attempt_error (storeBytes_error bs _ _ hout s.i.isLt.le)

end Store

theorem exec_bcd (x : RegIdx) (s : State) :
    exec (.bcd x) s = attempt (.bcd x) (storeBytes s.i.toNat (decimalDigits (s.getV x))) s := rfl

theorem exec_storeRegs (x : RegIdx) (s : State) :
    exec (.storeRegs x) s = attempt (.storeRegs x) (storeBytes s.i.toNat (regsUpTo x s)) s := rfl

/-- The digits of a byte, read back where they were written: hundreds, tens and ones. -/
theorem read_writeAll_decimalDigits {m : Memory} (hw : Memory.wf m = true) {a : Nat} (ha : a + 3 ≤ 0x1000) (d : Byte) :
    (Memory.read (Memory.writeAll m a (decimalDigits d)) a).toNat = d.toNat / 100 ∧
      (Memory.read (Memory.writeAll m a (decimalDigits d)) (a + 1)).toNat = d.toNat / 10 % 10 ∧
      (Memory.read (Memory.writeAll m a (decimalDigits d)) (a + 2)).toNat = d.toNat % 10 := by
  have hdigit (k : Nat) (hk : k < 3) :
      (decimalDigits d)[k]? = some (Memory.read (Memory.writeAll m a (decimalDigits d)) (a + k)) := by
    rw [Memory.read_writeAll_at hw ha hk, List.getElem?_eq_getElem hk]
  refine ⟨?_, ?_, ?_⟩
  · simpa using decimalDigits_getElem?_eq_some.1 (hdigit 0 (by omega))
  · simpa using decimalDigits_getElem?_eq_some.1 (hdigit 1 (by omega))
  · simpa using decimalDigits_getElem?_eq_some.1 (hdigit 2 (by omega))

/-- Settles O31: the three digits fit exactly when `I` is below 0xFFE. -/
theorem bcdStoresThreeDigits : Obligations.BcdStoresThreeDigits := by
  have henc (x : RegIdx) : encode (.bcd x) = wordXNN 0xF x.val 0x33 := (wordXNN_eq 0xF x 0x33).symm
  refine ⟨fun x => decode_of_encode_eq rfl (henc x), fun x s hi => ?_, fun x s hw hi => ?_⟩
  · rw [exec_bcd, attempt_storeBytes_error _ (by rw [decimalDigits_length]; omega), henc]
  · have hfit : s.i.toNat + (decimalDigits (s.getV x)).length ≤ 0x1000 := by rw [decimalDigits_length]; omega
    obtain ⟨hhundreds, htens, hones⟩ := read_writeAll_decimalDigits hw hfit (s.getV x)
    refine ⟨_, (exec_bcd x s).trans (attempt_storeBytes_ok _ hfit), hhundreds, htens, hones, fun a ha => ?_⟩
    exact Memory.read_writeAll_outside hw hfit (by rw [decimalDigits_length]; omega)

/-- Settles O32: the `x + 1` registers fit exactly when `I + x` is at most 0xFFF. -/
theorem registerDump : Obligations.RegisterDump := by
  have henc (x : RegIdx) : encode (.storeRegs x) = wordXNN 0xF x.val 0x55 := (wordXNN_eq 0xF x 0x55).symm
  refine ⟨fun x => decode_of_encode_eq rfl (henc x), fun x s hi => ?_, fun x s hw hi => ?_⟩
  · rw [exec_storeRegs, attempt_storeBytes_error _ (by rw [regsUpTo_length]; omega), henc]
  · have hfit : s.i.toNat + (regsUpTo x s).length ≤ 0x1000 := by rw [regsUpTo_length]; omega
    refine ⟨_, (exec_storeRegs x s).trans (attempt_storeBytes_ok _ hfit), fun k hk => ?_, fun a ha => ?_⟩
    · have hlt : k.val < (regsUpTo x s).length := by rw [regsUpTo_length]; exact Nat.lt_succ_of_le hk
      exact (Memory.read_writeAll_at hw hfit hlt).trans (regsUpTo_getElem x s k.val hlt)
    · exact Memory.read_writeAll_outside hw hfit (by rw [regsUpTo_length]; omega)

/-! ### The register load -/

/-- The registers after LD Vx,[I]: those up to `x` from memory at `I`. -/
def State.loadedRegs (s : State) (x : RegIdx) : Vector Byte 16 :=
  setRegs 0 ((List.range (x.val + 1)).map fun k => s.byte (s.i.toNat + k)) s.v

/-- A register after LD Vx,[I]: its byte at `I` up to `x`, its old value above. -/
theorem getElem_loadedRegs (s : State) (x k : RegIdx) :
    (s.loadedRegs x)[k.val] = if k ≤ x then s.byte (s.i.toNat + k.val) else s.getV k := by
  rw [State.loadedRegs, getElem_setRegs _ _ _ _ k.isLt]
  by_cases hk : k ≤ x
  · have hlt : k.val < x.val + 1 := Nat.lt_succ_of_le hk
    simp [hk, hlt]
  · have hge : ¬ k.val < x.val + 1 := fun h => hk (Nat.le_of_lt_succ h)
    simp [hk, hge, State.getV]

/-- LD Vx,[I] with its last byte in memory. -/
theorem exec_loadRegs_ok {x : RegIdx} {s : State} (hfit : s.i.toNat + x.val ≤ 0xFFF) :
    exec (.loadRegs x) s = .next { s with pc := s.pc + 2, v := s.loadedRegs x } := by
  have hload : loadBytes (s.advancePc.indexAddr 0) (x.val + 1) s.advancePc = .ok _ :=
    loadBytes_ok _ _ _ (show s.i.toNat + (x.val + 1) ≤ 0x1000 by omega)
  apply attempt_ok
  rw [loadRegsBody, hload]
  rfl

/-- LD Vx,[I] with its last byte outside memory (R175, R217). -/
theorem exec_loadRegs_error {x : RegIdx} {s : State} (hout : 0xFFF < s.i.toNat + x.val) :
    exec (.loadRegs x) s = .next (s.faulted (.memoryOutOfRange 0x1000) (some (encode (.loadRegs x)))) := by
  have hload : loadBytes (s.advancePc.indexAddr 0) (x.val + 1) s.advancePc = .error (.memoryOutOfRange 0x1000) :=
    loadBytes_error _ _ _ (show 0x1000 < s.i.toNat + (x.val + 1) by omega) s.i.isLt.le
  exact attempt_error (by rw [loadRegsBody, hload])

/-- Settles O33: each side of the bounds check has its equation, and `getElem_loadedRegs` gives the registers. -/
theorem registerLoad : Obligations.RegisterLoad := by
  have henc (x : RegIdx) : encode (.loadRegs x) = wordXNN 0xF x.val 0x65 := (wordXNN_eq 0xF x 0x65).symm
  refine ⟨fun x => decode_of_encode_eq rfl (henc x), fun x s hi => henc x ▸ exec_loadRegs_error hi,
    fun x s hi => ⟨s.loadedRegs x, exec_loadRegs_ok hi, fun k hk => ?_, fun k hk => ?_⟩⟩
  · rw [getElem_loadedRegs, if_pos hk]
  · rw [getElem_loadedRegs, if_neg (not_le.2 hk)]

/-! ### The round trip -/

/-- Settles O34: register `k` is loaded from the byte at `I + k`, which the dump made `V[k]`. -/
theorem dumpThenLoadRestores : Obligations.DumpThenLoadRestores := by
  intro x y k s t u hw hfit hyx hky ht hmem hi
  obtain ⟨-, -, hdump⟩ := registerDump
  obtain ⟨m, hm, hstored, -⟩ := hdump x s hw hfit
  rw [hm] at ht
  cases ht
  have hi : u.i = s.i := hi
  have hfit' : u.i.toNat + y.val ≤ 0xFFF := by rw [hi]; exact (Nat.add_le_add_left hyx _).trans hfit
  refine ⟨_, exec_loadRegs_ok hfit', ?_⟩
  calc (u.loadedRegs y)[k.val]
    _ = Memory.read u.mem (u.i.toNat + k.val) := by rw [getElem_loadedRegs, if_pos hky, State.byte]
    _ = Memory.read m (s.i.toNat + k.val) := by rw [hmem, hi]
    _ = s.getV k := hstored k (hky.trans hyx)

end Sys2Proof.Machine
end

section
/-! Clear and sprite blit (44_display.md): what CLS and DRW do to memory, the display and `VF`, and which address a DRW
that leaves memory faults with.

A draw is read as a sequence of memories, one after each row (`State.memAfterRows`). One row XORs its pattern into every
byte, and bit `p mod 8` of framebuffer byte `p div 8` of that pattern is set exactly when a set pixel of the row lands on
`p` (`rowXor_getLsbD_display`). The statements about pixels come from this sequence; where the sprite lies apart from what the draw
writes, every row reads the sprite of the start, and no two rows meet in a pixel. -/

namespace Sys2Proof.Machine

/-! ### CLS -/

/-- CLS stores 256 zeroes, all of them in memory. -/
theorem exec_cls (h : Nibble) (s : State) :
    exec (.cls h) s = .next { s with
      pc := s.pc + 2, mem := Memory.writeAll s.mem 0xF00 (List.replicate 256 0), displayChanged := true } := by
  have hstore := storeBytes_ok (List.replicate 256 0) 0xF00 s.advancePc (by rw [List.length_replicate])
  change attempt (.cls h) clsBody s = _
  apply attempt_ok
  simp only [clsBody, Config.fbBase, Config.fbSize, hstore]
  rfl

/-- Settles O36: the 256 zeroes are the bytes from 0xF00 to the end of memory. -/
theorem clsClearsFramebufferOnly : Obligations.ClsClearsFramebufferOnly := by
  refine fun h s => ⟨decode_of_encode_eq rfl (wordXNN_sel_eq 0x0 h 0xE0).symm, fun hw => ⟨_, exec_cls h s, ?_, ?_⟩⟩
  · intro a hlo hhi
    rw [Memory.read_writeAll hw _ _ (by rw [List.length_replicate]), dif_pos (by rw [List.length_replicate]; omega),
      List.getElem_replicate]
  · intro a ha
    exact Memory.read_writeAll_outside hw (by rw [List.length_replicate]) (by rw [List.length_replicate]; omega)

/-! ### The accesses of a draw -/

theorem mem_rowAccesses {i : Addr12} {cx cy : Byte} {k a : Nat} :
    a ∈ rowAccesses i cx cy k ↔ a = i.toNat + k ∨ a = spriteAddr cx cy k ∨
      (cx.toNat % 8 ≠ 0 ∧ a = spriteAddr cx cy k + 1) := by
  rw [rowAccesses]
  by_cases hs : cx.toNat % 8 = 0 <;> simp [hs]

/-- The accesses of a draw are the sprite bytes it reads and the framebuffer bytes it writes. -/
theorem mem_drawAccesses {s : State} {cx cy : Byte} {n a : Nat} :
    a ∈ s.drawAccesses cx cy n ↔ s.drawReads n a ∨ drawWrites cx cy n a := by
  simp only [drawAccesses_eq, List.mem_flatMap, List.mem_range'_1, Nat.zero_le, true_and, Nat.zero_add, mem_rowAccesses,
    State.drawReads, drawWrites, ← spriteAddr_eq, and_or_left, exists_or]

/-- A draw that leaves memory has a first access out of range. -/
theorem exists_first_out_of_range {s : State} {cx cy : Byte} {n : Nat} (h : ¬ s.drawInRange cx cy n) :
    ∃ a, (s.drawAccesses cx cy n).find? (fun a => decide (0x1000 ≤ a)) = some a := by
  simp only [State.drawInRange, not_forall, ← mem_drawAccesses, exists_prop, Nat.not_lt] at h
  obtain ⟨a, hmem, ha⟩ := h
  exact Option.isSome_iff_exists.1 (List.find?_isSome.2 ⟨a, hmem, decide_eq_true ha⟩)

/-- The rows of a draw in range are in range. -/
theorem drawRowInRange_of_drawInRange {s : State} {cx cy : Byte} {n k : Nat} (h : s.drawInRange cx cy n) (hk : k < n) :
    drawRowInRange s.i cx cy k := by
  refine ⟨h _ (.inl ⟨k, hk, rfl⟩), h _ (.inr ⟨k, hk, .inl (spriteAddr_eq ..)⟩), ?_⟩
  by_cases hs : cx.toNat % 8 = 0
  · exact .inl hs
  · exact .inr (h _ (.inr ⟨k, hk, .inr ⟨hs, by rw [spriteAddr_eq]⟩⟩))

/-! ### Draws that leave memory -/

theorem encode_drw (x y : RegIdx) {n : Nat} (hn : n ≤ 15) : encode (.drw x y n) = wordXYN 0xD x.val y.val n := by
  have e : (BitVec.ofNat 4 n).toNat = n := Nat.mod_eq_of_lt (by omega)
  have h := wordXYN_eq 0xD x y (BitVec.ofNat 4 n)
  rw [e] at h
  exact h.symm

theorem decode_drw (x y : RegIdx) {n : Nat} (hn : n ≤ 15) :
    decode (wordXYN 0xD x.val y.val n) = .ok (.drw x y n) :=
  decode_of_encode_eq (decide_eq_true hn) (encode_drw x y hn)

/-- A draw with an access out of range takes the fault of the first one (R194, R217). -/
theorem exec_drw_error {x y : RegIdx} {n a : Nat} {s : State} (hn : n ≤ 15)
    (ha : (s.drawAccesses (s.getV x) (s.getV y) n).find? (fun a => decide (0x1000 ≤ a)) = some a) :
    exec (.drw x y n) s = .next (s.faulted (.memoryOutOfRange a) (some (wordXYN 0xD x.val y.val n))) := by
  have hrows := drawRows_first (s.getV x) (s.getV y) n 0 ⟨s.advancePc, false⟩
  rw [drawAccesses_eq] at ha
  simp only [advancePc_i, ha] at hrows
  rw [← encode_drw x y hn]
  exact attempt_error (by rw [drwBody, advancePc_getV, advancePc_getV, hrows])

/-- A sprite of a row or more at display row 31 and column 57 or more needs the byte at 0x1000 or one above it. -/
theorem not_drawInRange_of_bottom_right {s : State} {cx cy : Byte} {n : Nat} (hn : 0 < n) (hcy : cy.toNat % 32 = 31)
    (hcx : 57 ≤ cx.toNat) : ¬ s.drawInRange cx cy n := by
  intro h
  obtain ⟨-, h0, h1⟩ := drawRowInRange_of_drawInRange h hn
  rw [spriteAddr_eq] at h0 h1
  omega

/-- Settles O40: a draw that leaves memory has a first access out of range, and faults with it. -/
theorem drwBeyondMemoryFaults : Obligations.DrwBeyondMemoryFaults := by
  refine ⟨fun x y n hn => decode_drw x y hn, fun x y n a s hn ha => exec_drw_error hn ha,
    fun x y n s h => exists_first_out_of_range h, fun x y n s h0 hn hcy hcx => ?_⟩
  obtain ⟨a, ha⟩ := exists_first_out_of_range (not_drawInRange_of_bottom_right h0 hcy hcx)
  exact ⟨_, exec_drw_error hn ha, rfl, rfl⟩

/-! ### A draw as a sequence of memories -/

/-- The drawing after the first `k` rows of a sprite; it stands for those rows where they are all in range. -/
def State.afterRows (s : State) (cx cy : Byte) (k : Nat) : Drawing :=
  match drawRows cx cy 0 k ⟨s.advancePc, false⟩ with
  | .ok d => d
  | .error _ => ⟨s.advancePc, false⟩

/-- Memory after the first `k` rows of a sprite. -/
def State.memAfterRows (s : State) (cx cy : Byte) (k : Nat) : Memory := (s.afterRows cx cy k).st.mem

/-- Whether the first `k` rows of a sprite have turned a pixel off. -/
def State.collAfterRows (s : State) (cx cy : Byte) (k : Nat) : Bool := (s.afterRows cx cy k).coll

/-- What row `k` of the sprite at `i`, as this memory holds it, XORs into the byte at `a`. -/
def Memory.rowXor (m : Memory) (i : Addr12) (cx cy : Byte) (k a : Nat) : Byte :=
  rowPattern (spriteAddr cx cy k) (cx.toNat % 8) (Memory.read m (i.toNat + k)) a

theorem memAfterRows_zero (s : State) (cx cy : Byte) : s.memAfterRows cx cy 0 = s.mem := rfl

theorem collAfterRows_zero (s : State) (cx cy : Byte) : s.collAfterRows cx cy 0 = false := rfl

/-- The last row of a draw is drawn on what the rows before it made. -/
theorem drawRows_succ {cx cy : Byte} {n k : Nat} {d d' : Drawing} (h : drawRows cx cy k n d = .ok d') :
    drawRows cx cy k (n + 1) d = drawRow cx cy (k + n) d' := by
  induction n generalizing k d with
  | zero =>
    cases h
    simp only [drawRows, Nat.add_zero]
    split <;> simp only [*]
  | succ n ih =>
    rw [drawRows] at h ⊢
    split at h
    · rename_i d1 h1
      simp only [ih h, Nat.add_right_comm k 1 n, Nat.add_assoc]
    · cases h

section Rows
variable {s : State} {cx cy : Byte} {n k : Nat}

/-- The first rows of a draw in range are drawn: memory alone changes, only where they write, and stays canonical. -/
theorem drawRows_afterRows (hw : Memory.wf s.mem = true) (hr : s.drawInRange cx cy n) (hk : k ≤ n) :
    drawRows cx cy 0 k ⟨s.advancePc, false⟩ =
        .ok ⟨{ s.advancePc with mem := s.memAfterRows cx cy k }, s.collAfterRows cx cy k⟩ ∧
      Memory.wf (s.memAfterRows cx cy k) = true ∧
      ∀ a, ¬ drawWrites cx cy k a → Memory.read (s.memAfterRows cx cy k) a = s.byte a := by
  obtain ⟨m, c, h, hwm, hframe⟩ := drawRows_ok cx cy k 0 ⟨s.advancePc, false⟩
    (fun j _ hj => drawRowInRange_of_drawInRange hr (by omega)) hw
  have hafter : s.afterRows cx cy k = ⟨{ s.advancePc with mem := m }, c⟩ := by rw [State.afterRows, h]
  rw [State.memAfterRows, State.collAfterRows, hafter]
  refine ⟨h, hwm, fun a ha => hframe a fun j _ hj =>
    ⟨fun e => ha ⟨j, by omega, .inl (e.trans (spriteAddr_eq ..))⟩, ?_⟩⟩
  by_cases hs : cx.toNat % 8 = 0
  · exact .inl hs
  · exact .inr fun e => ha ⟨j, by omega, .inr ⟨hs, e.trans (by rw [spriteAddr_eq])⟩⟩

theorem wf_memAfterRows (hw : Memory.wf s.mem = true) (hr : s.drawInRange cx cy n) (hk : k ≤ n) :
    Memory.wf (s.memAfterRows cx cy k) = true := by
  obtain ⟨-, hwk, -⟩ := drawRows_afterRows hw hr hk
  exact hwk

/-- A byte that the first rows do not write. -/
theorem read_memAfterRows_of_not_drawWrites (hw : Memory.wf s.mem = true) (hr : s.drawInRange cx cy n) (hk : k ≤ n)
    {a : Nat} (ha : ¬ drawWrites cx cy k a) : Memory.read (s.memAfterRows cx cy k) a = s.byte a := by
  obtain ⟨-, -, hframe⟩ := drawRows_afterRows hw hr hk
  exact hframe a ha

/-- One more row: it is read from the memory so far, XORed into it, and adds its own collision. -/
theorem afterRows_succ (hw : Memory.wf s.mem = true) (hr : s.drawInRange cx cy n) (hk : k < n) :
    (∀ a, Memory.read (s.memAfterRows cx cy (k + 1)) a =
        Memory.read (s.memAfterRows cx cy k) a ^^^ (s.memAfterRows cx cy k).rowXor s.i cx cy k a) ∧
      (s.collAfterRows cx cy (k + 1) = true ↔ s.collAfterRows cx cy k = true ∨
        ∃ a, Memory.read (s.memAfterRows cx cy k) a &&& (s.memAfterRows cx cy k).rowXor s.i cx cy k a ≠ 0) := by
  obtain ⟨hrows, hwk, -⟩ := drawRows_afterRows hw hr hk.le
  obtain ⟨m, c, hrow, -, hread, hcoll⟩ := drawRow_ok
    (d := ⟨{ s.advancePc with mem := s.memAfterRows cx cy k }, s.collAfterRows cx cy k⟩)
    (drawRowInRange_of_drawInRange hr hk) hwk
  have hafter : s.afterRows cx cy (k + 1) = ⟨{ s.advancePc with mem := m }, s.collAfterRows cx cy k || c⟩ := by
    rw [State.afterRows, drawRows_succ hrows, Nat.zero_add, hrow]
  have hmem : s.memAfterRows cx cy (k + 1) = m := congrArg (fun d => d.st.mem) hafter
  have hc : s.collAfterRows cx cy (k + 1) = (s.collAfterRows cx cy k || c) := congrArg Drawing.coll hafter
  rw [hmem, hc, Bool.or_eq_true]
  exact ⟨hread, or_congr_right hcoll⟩

end Rows

/-- The state after a draw of `n` rows at `(cx, cy)` in range: memory after its rows, and their collision in `VF`. -/
def State.drawn (s : State) (cx cy : Byte) (n : Nat) : State :=
  { s with pc := s.pc + 2, mem := s.memAfterRows cx cy n, v := s.v.set 15 (flagByte (s.collAfterRows cx cy n)),
           displayChanged := true }

theorem drawn_getV_VF (s : State) (cx cy : Byte) (n : Nat) :
    (s.drawn cx cy n).getV 15 = flagByte (s.collAfterRows cx cy n) := Vector.getElem_set_self _

/-- A draw in range completes. -/
theorem exec_drw_ok {x y : RegIdx} {n : Nat} {s : State} (hw : Memory.wf s.mem = true)
    (hr : s.drawInRange (s.getV x) (s.getV y) n) :
    exec (.drw x y n) s = .next (s.drawn (s.getV x) (s.getV y) n) := by
  obtain ⟨hrows, -, -⟩ := drawRows_afterRows hw hr le_rfl
  exact attempt_ok (by rw [drwBody, advancePc_getV, advancePc_getV, hrows]; rfl)

/-- Settles O37: the frame of the rows is the frame of the draw. -/
theorem drwFrame : Obligations.DrwFrame := by
  intro x y n s hw _ hr
  exact ⟨_, _, flagByte_zero_or_one _, exec_drw_ok hw hr, fun a => read_memAfterRows_of_not_drawWrites hw hr le_rfl⟩

/-- Settles O41: no rows leave memory as it is and turn nothing off. -/
theorem drwOfNoRowsDrawsNothing : Obligations.DrwOfNoRowsDrawsNothing :=
  fun x y _ => ⟨decode_drw x y (Nat.zero_le 15), rfl⟩

/-! ### The pixels of one row -/

/-- Bits of a row's pattern, at their place in all of memory: pixel `j` of the row is bit `sh + j` from its first byte on
(R192, R193). -/
theorem rowPattern_getLsbD {a0 sh : Nat} {b : Byte} {a i : Nat} (hsh : sh < 8) (hi : i < 8) :
    (rowPattern a0 sh b a).getLsbD i = true ↔
      ∃ j < 8, 8 * a + i = 8 * a0 + sh + j ∧ b.getLsbD (7 - j) = true := by
  have hrev (j : Nat) : (rev8 b).getLsbD j = true ↔ j < 8 ∧ b.getLsbD (7 - j) = true := by
    rw [rev8, BitVec.getLsbD_reverse, BitVec.getMsbD, Bool.and_eq_true, decide_eq_true_eq]
  rw [rowPattern]
  split
  · rename_i h0
    rw [BitVec.getLsbD_shiftLeft, Bool.and_eq_true, hrev]
    constructor
    · rintro ⟨hle, hlt, hb⟩
      simp only [Bool.and_eq_true, Bool.not_eq_true', decide_eq_true_eq, decide_eq_false_iff_not] at hle
      exact ⟨i - sh, hlt, by omega, hb⟩
    · rintro ⟨j, hj, he, hb⟩
      obtain rfl : i = sh + j := by omega
      simpa [hi, hj] using hb
  · split
    · rename_i h1
      rw [BitVec.getLsbD_ushiftRight, hrev]
      constructor
      · rintro ⟨hlt, hb⟩
        exact ⟨8 - sh + i, hlt, by omega, hb⟩
      · rintro ⟨j, hj, he, hb⟩
        obtain rfl : j = 8 - sh + i := by omega
        exact ⟨hj, hb⟩
    · rename_i h0 h1
      refine iff_of_false (by simp) ?_
      rintro ⟨j, hj, he, -⟩
      omega

/-- A pixel of a draw whose framebuffer bytes exist is a position of the display. -/
theorem landing_lt {i : Addr12} {cx cy : Byte} {k j : Nat} (hr : drawRowInRange i cx cy k) (hj : j < 8) :
    landing cx cy k j < 2048 := by
  obtain ⟨-, h0, h1⟩ := hr
  rw [spriteAddr_eq] at h0 h1
  rw [landing]
  omega

section RowPixels
variable {m m' : Memory} {i : Addr12} {cx cy : Byte} {k : Nat}

/-- A bit that a row XORs into memory is a set pixel of the row, at the place where it lands. -/
theorem rowXor_getLsbD {a b : Nat} (hb : b < 8) :
    (m.rowXor i cx cy k a).getLsbD b = true ↔
      ∃ j < 8, 8 * a + b = 8 * 0xF00 + landing cx cy k j ∧ (Memory.read m (i.toNat + k)).getLsbD (7 - j) = true := by
  have hplace (j : Nat) : 8 * spriteAddr cx cy k + cx.toNat % 8 + j = 8 * 0xF00 + landing cx cy k j := by
    rw [spriteAddr_eq, landing]
    omega
  rw [Memory.rowXor, rowPattern_getLsbD (Nat.mod_lt _ (by decide)) hb]
  simp only [hplace]

/-- The bit at a position of the display is XORed exactly when a set pixel lands there. -/
theorem rowXor_getLsbD_display (p : Nat) :
    (m.rowXor i cx cy k (0xF00 + p / 8)).getLsbD (p % 8) = true ↔ m.rowHits i cx cy k p := by
  have hplace : 8 * (0xF00 + p / 8) + p % 8 = 8 * 0xF00 + p := by omega
  rw [rowXor_getLsbD (Nat.mod_lt p (by decide)), hplace]
  simp only [Nat.add_left_cancel_iff]
  rfl

/-- A row in range leaves every byte outside the framebuffer. -/
theorem rowXor_outside (hr : drawRowInRange i cx cy k) {a : Nat} (ha : a < 0xF00 ∨ 0xFFF < a) :
    m.rowXor i cx cy k a = 0 := by
  apply BitVec.eq_of_getLsbD_eq
  intro b hb
  rw [show (0 : Byte).getLsbD b = false from BitVec.getLsbD_zero, ← Bool.not_eq_true, rowXor_getLsbD hb]
  rintro ⟨j, hj, he, -⟩
  have := landing_lt hr hj
  omega

/-- A memory with a row XORed into it, pixel by pixel. -/
theorem fbPixel_of_rowXor (h : ∀ a, Memory.read m' a = Memory.read m a ^^^ m.rowXor i cx cy k a) (p : Nat) :
    m'.fbPixel p = true ↔ Xor (m.fbPixel p = true) (m.rowHits i cx cy k p) := by
  rw [← rowXor_getLsbD_display, Memory.fbPixel, Memory.fbPixel, h, BitVec.getLsbD_xor, Bool.xor_iff_ne,
    xor_iff_not_iff]
  exact not_congr Bool.eq_iff_iff

/-- A row in range collides with memory exactly when it turns off a pixel of the display. -/
theorem collision_iff_pixel (hr : drawRowInRange i cx cy k) :
    (∃ a, Memory.read m a &&& m.rowXor i cx cy k a ≠ 0) ↔
      ∃ p < 2048, m.fbPixel p = true ∧ m.rowHits i cx cy k p := by
  have hpixel (p : Nat) : (Memory.read m (0xF00 + p / 8) &&& m.rowXor i cx cy k (0xF00 + p / 8)).getLsbD (p % 8) = true ↔
      m.fbPixel p = true ∧ m.rowHits i cx cy k p := by
    rw [BitVec.getLsbD_and, Bool.and_eq_true, rowXor_getLsbD_display, Memory.fbPixel]
  constructor
  · rintro ⟨a, hne⟩
    obtain ⟨b, hb, hbit⟩ : ∃ b < 8, (Memory.read m a &&& m.rowXor i cx cy k a).getLsbD b = true := by
      by_contra hnone
      push Not at hnone
      exact hne (BitVec.eq_of_getLsbD_eq fun b hb => by simpa using hnone b hb)
    have hset := hbit
    rw [BitVec.getLsbD_and, Bool.and_eq_true, rowXor_getLsbD hb] at hset
    obtain ⟨-, j, hj, he, -⟩ := hset
    have hlt := landing_lt hr hj
    obtain rfl : a = 0xF00 + landing cx cy k j / 8 := by omega
    obtain rfl : b = landing cx cy k j % 8 := by omega
    exact ⟨_, hlt, (hpixel _).1 hbit⟩
  · rintro ⟨p, -, hp⟩
    refine ⟨0xF00 + p / 8, fun hzero => ?_⟩
    have hbit := (hpixel p).2 hp
    rw [hzero] at hbit
    simp at hbit

end RowPixels

/-! ### The pixels of a draw -/

theorem flagByte_eq_one {c : Bool} : flagByte c = 1 ↔ c = true := by cases c <;> decide

theorem flagByte_eq_zero {c : Bool} : flagByte c = 0 ↔ ¬ c = true := by cases c <;> decide

/-- A draw collides when one of its rows turns off a pixel of the display as the rows before it left it. -/
theorem collAfterRows_iff {s : State} {cx cy : Byte} {n k : Nat} (hw : Memory.wf s.mem = true)
    (hr : s.drawInRange cx cy n) (hk : k ≤ n) :
    s.collAfterRows cx cy k = true ↔ ∃ j < k, ∃ p < 2048,
      (s.memAfterRows cx cy j).fbPixel p = true ∧ (s.memAfterRows cx cy j).rowHits s.i cx cy j p := by
  induction k with
  | zero => simp [collAfterRows_zero]
  | succ k ih =>
    rw [(afterRows_succ hw hr hk).2, ih (by omega), collision_iff_pixel (drawRowInRange_of_drawInRange hr hk),
      Nat.exists_lt_succ_right (n := k)]

/-- Settles O39: the memories are those after each row. -/
theorem drwRowsSeeEarlierRows : Obligations.DrwRowsSeeEarlierRows := by
  intro x y n s hw _ hr
  have hcoll := collAfterRows_iff hw hr le_rfl
  refine ⟨s.memAfterRows (s.getV x) (s.getV y), _, memAfterRows_zero .., exec_drw_ok hw hr, fun k hk p _ => ?_,
    fun k hk a ha => ?_, flagByte_eq_one.trans hcoll, flagByte_eq_zero.trans (not_congr hcoll)⟩
  · exact fbPixel_of_rowXor (afterRows_succ hw hr hk).1 p
  · rw [(afterRows_succ hw hr hk).1, rowXor_outside (drawRowInRange_of_drawInRange hr hk) ha]
    exact BitVec.xor_zero

/-! ### A sprite apart from what it writes -/

section Apart
variable {s : State} {cx cy : Byte} {n k p : Nat}

/-- The pixels of two rows of a sprite never meet: they land in different rows of the display. -/
theorem row_eq_of_rowHits {m : Memory} {i : Addr12} {j : Nat} (hj : j < 32) (hk : k < 32)
    (h : m.rowHits i cx cy j p) (h' : m.rowHits i cx cy k p) : j = k := by
  obtain ⟨a, ha, rfl, -⟩ := h
  obtain ⟨b, hb, he, -⟩ := h'
  rw [landing, landing] at he
  omega

/-- The sprite lands with a set pixel where one of its rows does. -/
theorem spriteHits_iff : s.spriteHits cx cy n p ↔ ∃ k < n, s.mem.rowHits s.i cx cy k p := Iff.rfl

theorem spriteHits_succ :
    s.spriteHits cx cy (k + 1) p ↔ s.spriteHits cx cy k p ∨ s.mem.rowHits s.i cx cy k p := by
  rw [spriteHits_iff, spriteHits_iff, Nat.exists_lt_succ_right]

/-- A pixel of one row is no pixel of the rows before it. -/
theorem not_spriteHits_of_rowHits (hk : k < 32) (h : s.mem.rowHits s.i cx cy k p) : ¬ s.spriteHits cx cy k p := by
  rintro ⟨j, hj, hit⟩
  exact absurd (row_eq_of_rowHits (by omega) hk hit h) (by omega)

theorem drawWrites_mono {j a : Nat} (hjk : j ≤ k) (h : drawWrites cx cy j a) : drawWrites cx cy k a := by
  obtain ⟨l, hl, h⟩ := h
  exact ⟨l, by omega, h⟩

variable (hw : Memory.wf s.mem = true) (hr : s.drawInRange cx cy n) (ha : s.spriteApart cx cy n)
include hw hr ha

/-- Every sprite byte keeps its value through the draw. -/
theorem memAfterRows_sprite {j : Nat} (hk : k ≤ n) (hj : j < n) :
    Memory.read (s.memAfterRows cx cy k) (s.i.toNat + j) = s.byte (s.i.toNat + j) :=
  read_memAfterRows_of_not_drawWrites hw hr hk fun h => ha _ ⟨j, hj, rfl⟩ (drawWrites_mono hk h)

/-- Every row is the row of the start. -/
theorem rowHits_memAfterRows {j : Nat} (hk : k ≤ n) (hj : j < n) :
    (s.memAfterRows cx cy k).rowHits s.i cx cy j p ↔ s.mem.rowHits s.i cx cy j p := by
  rw [Memory.rowHits, memAfterRows_sprite hw hr ha hk hj]
  rfl

/-- Some rows XOR exactly their set pixels into the display. -/
theorem fbPixel_memAfterRows (hn : n ≤ 15) (hk : k ≤ n) :
    (s.memAfterRows cx cy k).fbPixel p = true ↔ Xor (s.fbPixel p = true) (s.spriteHits cx cy k p) := by
  induction k with
  | zero => simp [memAfterRows_zero, spriteHits_iff, xor_iff_not_iff, State.fbPixel, Memory.fbPixel, State.byte]
  | succ k ih =>
    rw [fbPixel_of_rowXor (afterRows_succ hw hr hk).1, ih (by omega), rowHits_memAfterRows hw hr ha (by omega) hk,
      spriteHits_succ]
    by_cases hit : s.mem.rowHits s.i cx cy k p
    · simp [xor_iff_not_iff, hit, not_spriteHits_of_rowHits (show k < 32 by omega) hit]
    · simp [xor_iff_not_iff, hit]

/-- The draw collides exactly when a set pixel of the sprite lands on a pixel that was on before the draw. -/
theorem collAfterRows_apart (hn : n ≤ 15) :
    s.collAfterRows cx cy n = true ↔ ∃ p < 2048, s.fbPixel p = true ∧ s.spriteHits cx cy n p := by
  have hrow {k p : Nat} (hk : k < n) :
      (s.memAfterRows cx cy k).fbPixel p = true ∧ (s.memAfterRows cx cy k).rowHits s.i cx cy k p ↔
        s.fbPixel p = true ∧ s.mem.rowHits s.i cx cy k p := by
    rw [rowHits_memAfterRows hw hr ha hk.le hk, fbPixel_memAfterRows hw hr ha hn hk.le]
    refine and_congr_left fun hit => ?_
    simp [xor_iff_not_iff, not_spriteHits_of_rowHits (by omega) hit]
  rw [collAfterRows_iff hw hr le_rfl]
  constructor
  · rintro ⟨k, hk, p, hp, h⟩
    obtain ⟨hon, hit⟩ := (hrow hk).1 h
    exact ⟨p, hp, hon, k, hk, hit⟩
  · rintro ⟨p, hp, hon, k, hk, hit⟩
    exact ⟨k, hk, p, hp, (hrow hk).2 ⟨hon, hit⟩⟩

end Apart

/-- Settles O38: with the sprite apart, the rows XOR the sprite of the start. -/
theorem drwXorsSpritePixels : Obligations.DrwXorsSpritePixels := by
  intro x y n s hw hn hr ha
  have hcoll := collAfterRows_apart hw hr ha hn
  refine ⟨_, exec_drw_ok hw hr, rfl, fun p _ => fbPixel_memAfterRows hw hr ha hn le_rfl, ?_⟩
  rw [drawn_getV_VF]
  exact ⟨flagByte_eq_one.trans hcoll, flagByte_eq_zero.trans (not_congr hcoll)⟩

/-! ### Drawing twice -/

/-- Memories with the same display that read alike outside it read alike everywhere. -/
theorem read_eq_of_fbPixel {m m' : Memory} (hin : ∀ p < 2048, m'.fbPixel p = true ↔ m.fbPixel p = true)
    (hout : ∀ a, a < 0xF00 ∨ 0xFFF < a → Memory.read m' a = Memory.read m a) (a : Nat) :
    Memory.read m' a = Memory.read m a := by
  by_cases ha : a < 0xF00 ∨ 0xFFF < a
  · exact hout a ha
  · apply BitVec.eq_of_getLsbD_eq
    intro b hb
    have hbyte : 0xF00 + (8 * (a - 0xF00) + b) / 8 = a := by omega
    have hbit : (8 * (a - 0xF00) + b) % 8 = b := by omega
    have h := hin (8 * (a - 0xF00) + b) (by omega)
    rwa [Memory.fbPixel, Memory.fbPixel, hbyte, hbit, ← Bool.eq_iff_iff] at h

section Twice
variable {s : State} {cx cy : Byte} {n : Nat}

/-- A draw in range leaves every byte outside the framebuffer. -/
theorem not_drawWrites_outside (hr : s.drawInRange cx cy n) {a : Nat} (ha : a < 0xF00 ∨ 0xFFF < a) :
    ¬ drawWrites cx cy n a := by
  intro h
  have := hr a (.inr h)
  obtain ⟨k, -, h⟩ := h
  omega

variable (hw : Memory.wf s.mem = true) (hr : s.drawInRange cx cy n)
include hw hr

theorem drawn_wf : Memory.wf (s.drawn cx cy n).mem = true := wf_memAfterRows hw hr le_rfl

theorem drawn_byte_outside {a : Nat} (ha : a < 0xF00 ∨ 0xFFF < a) : (s.drawn cx cy n).byte a = s.byte a :=
  read_memAfterRows_of_not_drawWrites hw hr le_rfl (not_drawWrites_outside hr ha)

variable (ha : s.spriteApart cx cy n) (hn : n ≤ 15)
include ha

/-- The second draw finds the sprite of the first. -/
theorem drawn_spritePixel {k : Nat} (hk : k < n) (j : Nat) : (s.drawn cx cy n).spritePixel k j = s.spritePixel k j :=
  congrArg (fun b : Byte => b.getLsbD (7 - j)) (memAfterRows_sprite hw hr ha le_rfl hk)

theorem drawn_spriteHits (p : Nat) : (s.drawn cx cy n).spriteHits cx cy n p ↔ s.spriteHits cx cy n p := by
  refine exists_congr fun k => and_congr_right fun hk => ?_
  simp only [drawn_spritePixel hw hr ha hk]

include hn

theorem drawn_fbPixel (p : Nat) :
    (s.drawn cx cy n).fbPixel p = true ↔ Xor (s.fbPixel p = true) (s.spriteHits cx cy n p) :=
  fbPixel_memAfterRows hw hr ha hn le_rfl

/-- XOR is its own inverse: two draws give every byte back. -/
theorem drawn_drawn_byte (a : Nat) : ((s.drawn cx cy n).drawn cx cy n).byte a = s.byte a := by
  have hw' := drawn_wf hw hr
  refine read_eq_of_fbPixel (fun p _ => ?_) (fun b hb => ?_) a
  · calc ((s.drawn cx cy n).drawn cx cy n).fbPixel p = true
      _ ↔ Xor ((s.drawn cx cy n).fbPixel p = true) ((s.drawn cx cy n).spriteHits cx cy n p) :=
        drawn_fbPixel hw' hr ha hn p
      _ ↔ Xor (Xor (s.fbPixel p = true) (s.spriteHits cx cy n p)) (s.spriteHits cx cy n p) := by
        rw [drawn_fbPixel hw hr ha hn, drawn_spriteHits hw hr ha]
      _ ↔ s.fbPixel p = true := by by_cases hit : s.spriteHits cx cy n p <;> simp [xor_iff_not_iff, hit]
  · exact (drawn_byte_outside hw' hr hb).trans (drawn_byte_outside hw hr hb)

/-- The second draw turns off exactly what the first turned on. -/
theorem drawn_collAfterRows : (s.drawn cx cy n).collAfterRows cx cy n = true ↔
    ∃ k < n, ∃ j < 8, s.spritePixel k j = true ∧ s.fbPixel (landing cx cy k j) = false := by
  have hpixel (p : Nat) : (s.drawn cx cy n).fbPixel p = true ∧ (s.drawn cx cy n).spriteHits cx cy n p ↔
      s.fbPixel p = false ∧ s.spriteHits cx cy n p := by
    rw [drawn_fbPixel hw hr ha hn, drawn_spriteHits hw hr ha]
    refine and_congr_left fun hit => ?_
    simp [xor_iff_not_iff, hit]
  rw [collAfterRows_apart (drawn_wf hw hr) hr ha hn]
  simp only [hpixel]
  constructor
  · rintro ⟨p, -, hoff, k, hk, j, hj, rfl, hset⟩
    exact ⟨k, hk, j, hj, hset, hoff⟩
  · rintro ⟨k, hk, j, hj, hset, hoff⟩
    exact ⟨_, landing_lt (drawRowInRange_of_drawInRange hr hk) hj, hoff, k, hk, j, hj, rfl, hset⟩

end Twice

/-- Settles O42: both draws are one state operation, and the second XORs out what the first XORed in. -/
theorem drawingTwiceRestoresDisplay : Obligations.DrawingTwiceRestoresDisplay := by
  intro x y x' y' n s t hw hn hr ha ht hx hy
  rw [exec_drw_ok hw hr] at ht
  cases ht
  have hsecond := exec_drw_ok (x := x') (y := y') (n := n) (drawn_wf hw hr) (by rw [hx, hy]; exact hr)
  have hcoll := drawn_collAfterRows hw hr ha hn
  rw [hx, hy] at hsecond
  refine ⟨_, hsecond, drawn_drawn_byte hw hr ha hn, ?_⟩
  rw [drawn_getV_VF]
  refine ⟨flagByte_eq_one.trans hcoll, flagByte_eq_zero.trans (not_congr hcoll), fun hoff => ?_⟩
  rw [flagByte_eq_one, hcoll]
  exact exists_congr fun k => and_congr_right fun hk => exists_congr fun j => and_congr_right fun hj =>
    and_iff_left_of_imp (hoff k hk j hj)

end Sys2Proof.Machine
end

section
/-! Exceptions and the host's operations (60_exceptions.md): when a step faults, what the fault is and what it changes,
and what each operation of the host does to the state.

`runsOrRaises_of_inv` cites one equation of an instruction for each side of its fault test: either it completes, or it
takes the one fault that R222 allows it. -/

namespace Sys2Proof.Machine

/-! ### Faults -/

/-- What a step returns when a running core takes a fault (R226, R227). -/
theorem stepResult_faulted {s : State} {f : Fault} {op : Option Word} (hh : s.halted = false)
    (h : step s = .next (s.faulted f op)) : stepResult s = .fault f := by
  rw [stepResult, h, resultOf, if_neg (Bool.eq_false_iff.1 hh)]
  rfl

/-- A step of a halted core returns `Halted` (R221). -/
theorem stepResult_halted {s : State} (h : s.halted = true) : stepResult s = .halted := if_pos h

/-- Settles O7: the range is the one the fetch tests, and the core was running. -/
theorem fetchOutsideProgramSpaceFaults : Obligations.FetchOutsideProgramSpaceFaults := by
  intro s hh hpc
  have h := step_of_pc_outside hh (show s.pc.toNat < 0x200 ∨ 0xE9E < s.pc.toNat by omega)
  exact ⟨h, stepResult_faulted hh h⟩

/-- A footprint never halts the core, so an instruction that halts it has taken a fault, with its own opcode. -/
theorem faulted_of_exec_halts {s t : State} {i : Instr} (hh : s.halted = false) (h : exec i s = .next t)
    (ht : t.halted = true) : ∃ f, t = s.faulted f (some (encode i)) := by
  obtain hp | hf := exec_cases h
  · obtain ⟨e, -, -⟩ := footprint_halted_fault_keys hp
    rw [e, hh] at ht
    cases ht
  · exact hf

/-- Settles O10: a step halts a running core only by a fault of the fetch, of the decode, or of the instruction, whose
encoding is the word fetched. -/
theorem faultedStepRollsBack : Obligations.FaultedStepRollsBack := by
  intro s t hh h ht
  obtain ⟨hs, -⟩ | ⟨-, -, rfl⟩ | ⟨-, hf, -, rfl⟩ | ⟨-, hf, i, hd, hx⟩ := step_cases h
  · exact absurd hs (Bool.eq_false_iff.1 hh)
  · exact ⟨_, stepResult_faulted hh h, .inl ⟨rfl, rfl⟩⟩
  · exact ⟨_, stepResult_faulted hh h, .inr ⟨hf, rfl⟩⟩
  · obtain ⟨f, rfl⟩ := faulted_of_exec_halts hh hx ht
    obtain ⟨-, henc⟩ := encodeInvertsDecode _ i hd
    exact ⟨f, stepResult_faulted hh h, .inr ⟨hf, by rw [henc]⟩⟩

/-! ### The fault of each instruction -/

/-- The instruction completes and leaves `halted` as it was, or takes a fault that R222 allows it. -/
def RunsOrRaises (i : Instr) (s : State) : Prop :=
  (∃ t, exec i s = .next t ∧ t.halted = s.halted) ∨
    ∃ f, mayRaise s i f ∧ exec i s = .next (s.faulted f (some (encode i)))

/-- A draw with every access in memory completes; any other faults at its first access out of range (R217). -/
theorem runsOrRaises_drw {s : State} (x y : RegIdx) {n : Nat} (hw : Memory.wf s.mem = true) (hn : n ≤ 15) :
    RunsOrRaises (.drw x y n) s := by
  by_cases hr : s.drawInRange (s.getV x) (s.getV y) n
  · exact .inl ⟨_, exec_drw_ok hw hr, rfl⟩
  · obtain ⟨a, ha⟩ := exists_first_out_of_range hr
    have hout : 0x1000 ≤ a := by simpa using List.find?_some ha
    exact .inr ⟨_, ⟨a, hout, rfl⟩, encode_drw x y hn ▸ exec_drw_error hn ha⟩

/-- A store at `I` fits in memory, or faults at 0x1000 (R217). -/
theorem runsOrRaises_of_storeBytes {i : Instr} {bs : List Byte} {s : State}
    (h : exec i s = attempt i (storeBytes s.i.toNat bs) s) (hf : mayRaise s i (.memoryOutOfRange 0x1000)) :
    RunsOrRaises i s := by
  obtain hfit | hout := le_or_gt (s.i.toNat + bs.length) 0x1000
  · exact .inl ⟨_, h.trans (attempt_storeBytes_ok i hfit), rfl⟩
  · exact .inr ⟨_, hf, h.trans (attempt_storeBytes_error i hout)⟩

/-- A key test finds a key in its register, or faults with the register's value (R216). -/
theorem runsOrRaises_of_keyTest {i : Instr} {want : Bool → Bool} {x : RegIdx} {s : State}
    (h : exec i s = attempt i (keyTest want x) s) (hf : mayRaise s i (.keyIndexOutOfRange (s.getV x))) :
    RunsOrRaises i s := by
  obtain hk | hk := lt_or_ge (s.getV x).toNat 16
  · exact .inl ⟨_, h.trans (attempt_keyTest_ok i (k := ⟨_, hk⟩) rfl), rfl⟩
  · exact .inr ⟨_, hf, h.trans (attempt_keyTest_error i hk)⟩

/-- Each instruction tests for one kind of fault at most. The invariant gives CALL a stack pointer whose push lies in
memory, and DRW a canonical memory. -/
theorem runsOrRaises_of_inv {s : State} {i : Instr} (h : Inv s) (hi : i.wellFormed = true) : RunsOrRaises i s := by
  cases i with
  | call nnn =>
    obtain hsp | hsp := le_or_gt s.sp.toNat 0xEA0
    · exact .inr ⟨_, rfl, exec_call_full hsp⟩
    · obtain ⟨-, hhi⟩ := h.sp_in_region
      exact .inl ⟨_, exec_call_ok hsp hhi nnn, rfl⟩
  | ret g =>
    obtain hsp | hsp := lt_or_ge s.sp.toNat 0xF00
    · exact .inl ⟨_, exec_ret_ok hsp, rfl⟩
    · exact .inr ⟨_, rfl, exec_ret_empty hsp⟩
  | ldF x =>
    obtain hv | hv := le_or_gt (s.getV x).toNat 15
    · exact .inl ⟨_, execLdFAt_ok hv, rfl⟩
    · exact .inr ⟨_, rfl, execLdFAt_error hv⟩
  | rnd x nn =>
    by_cases hn : nn = 0
    · exact .inr ⟨_, rfl, hn ▸ exec_rnd_zero x s⟩
    · exact .inl ⟨_, exec_rnd_ok x hn s, rfl⟩
  | loadRegs x =>
    obtain hfit | hout := le_or_gt (s.i.toNat + x.val) 0xFFF
    · exact .inl ⟨_, exec_loadRegs_ok hfit, rfl⟩
    · exact .inr ⟨_, rfl, exec_loadRegs_error hout⟩
  | drw x y n => exact runsOrRaises_drw x y h.memory_canonical (of_decide_eq_true hi)
  | bcd x => exact runsOrRaises_of_storeBytes (exec_bcd x s) rfl
  | storeRegs x => exact runsOrRaises_of_storeBytes (exec_storeRegs x s) rfl
  | keyd x => exact runsOrRaises_of_keyTest (exec_keyd x s) rfl
  | keyu x => exact runsOrRaises_of_keyTest (exec_keyu x s) rfl
  | cls g => exact .inl ⟨_, exec_cls g s, rfl⟩
  | seImm x nn => exact .inl ⟨_, skip_of_eq (s.getV x) nn s, rfl⟩
  | sneImm x nn => exact .inl ⟨_, skip_of_ne (s.getV x) nn s, rfl⟩
  | seReg x y l => exact .inl ⟨_, skip_of_eq (s.getV x) (s.getV y) s, rfl⟩
  | sneReg x y l => exact .inl ⟨_, skip_of_ne (s.getV x) (s.getV y) s, rfl⟩
  | getk x =>
    obtain ⟨t, ht⟩ := exec_next (.getk x) s
    obtain ⟨e, -, -⟩ := footprint_halted_fault_keys (getk_footprint ht)
    exact .inl ⟨t, ht, e⟩
  | _ => exact .inl ⟨_, rfl, rfl⟩

/-- Settles O11: the instruction that halted a running core took the fault R222 allows it, and its encoding is the word
fetched. -/
theorem oneFaultKindPerInstruction : Obligations.OneFaultKindPerInstruction := by
  intro s t i hinv hi h ht
  rw [step_of_runsNext hi] at h
  obtain ⟨hh, -, hd⟩ := hi
  obtain ⟨hwf, henc⟩ := encodeInvertsDecode _ i hd
  obtain ⟨u, hu, hrun⟩ | ⟨f, hf, hfault⟩ := runsOrRaises_of_inv hinv hwf
  · cases h.symm.trans hu
    rw [hrun, hh] at ht
    cases ht
  · cases h.symm.trans hfault
    exact ⟨f, hf, by rw [henc]⟩

/-! ### The host's operations -/

/-- A negative time is refused (R228). -/
theorem tickAt_negative {scale dt : Rat} {s : State} (h : dt < 0) :
    tickAt scale dt s = .refused (.negativeElapsedTime dt) := if_pos h

/-- A time that is not negative counts both timers down (R228). -/
theorem tickAt_nonneg {scale dt : Rat} {s : State} (h : 0 ≤ dt) :
    tickAt scale dt s = .next { s with dt := countDown s.dt (scale * dt), st := countDown s.st (scale * dt) } :=
  if_neg (not_lt.2 h)

theorem countDown_of_le {t d : Rat} (h : d ≤ t) : countDown t d = t - d := max_eq_right (sub_nonneg.2 h)

theorem countDown_of_lt {t d : Rat} (h : t < d) : countDown t d = 0 := max_eq_left (sub_nonpos.2 h.le)

/-- Settles O28: each timer is its own `countDown`, which is a difference down to zero and zero below. -/
theorem tickCountsDownClamped : Obligations.TickCountsDownClamped :=
  ⟨fun _ _ => rfl, fun _ _ _ h => tickAt_negative h, fun _ _ _ _ h =>
    ⟨_, _, tickAt_nonneg h, countDown_of_le, countDown_of_lt, countDown_of_le, countDown_of_lt⟩⟩

/-- A number above 15 is no key (R230). -/
theorem setKey_refused {k : Nat} {pressed : Bool} {s : State} (h : 15 < k) :
    setKey k pressed s = .refused (.keyNumberOutOfRange k) := dif_neg (Nat.not_lt.2 h)

/-- Settles O56: a key of the keypad is written in its own place. -/
theorem setKeyWritesOneKey : Obligations.SetKeyWritesOneKey :=
  ⟨fun _ _ _ h => setKey_refused h,
    fun k pressed s => ⟨_, setKey_key k pressed s, withKey_keys_same, fun _ h => withKey_keys_of_ne h⟩⟩

/-- Settles O57: each operation is its update of the state, and the step after `Halt()` finds the core halted. -/
theorem clearHaltAndReads : Obligations.ClearHaltAndReads :=
  fun _ => ⟨rfl, rfl, stepResult_halted rfl, rfl, rfl⟩

/-- Settles O46: operation by operation, in `performAt_keeps_inv`. -/
theorem hostOperationsKeepInv : Obligations.HostOperationsKeepInv :=
  fun _ _ _ _ hf h ht => performAt_keeps_inv hf h ht

/-- No operation but `Reset` runs a halted core again or changes its fault record, whatever the parameters. -/
theorem performAt_keeps_halt {p : Params} {op : HostOp} {s t : State} (h : s.halted = true)
    (hop : ∀ image, op ≠ .reset image) (ht : performAt p op s = .next t) : t.halted = true ∧ t.fault = s.fault := by
  cases op with
  | step => cases (stepBy_halted h).symm.trans ht; exact ⟨h, rfl⟩
  | tick dt =>
    obtain hneg | hdt := lt_or_ge dt 0
    · cases (tickAt_negative hneg).symm.trans ht
    · cases (tickAt_nonneg hdt).symm.trans ht; exact ⟨h, rfl⟩
  | setKey k pressed =>
    obtain hk | hk := lt_or_ge k 16
    · cases (setKey_key ⟨k, hk⟩ pressed s).symm.trans ht; exact ⟨h, rfl⟩
    · cases (setKey_refused hk).symm.trans ht
  | readFramebuffer | readStatus | clearDisplayChanged => cases ht; exact ⟨h, rfl⟩
  | halt => cases ht; exact ⟨rfl, rfl⟩
  | reset image => exact absurd rfl (hop image)

/-- Settles O8: a reset with an image that fits loads the reset values of R48, which clear both. -/
theorem onlyResetEndsHalt : Obligations.OnlyResetEndsHalt :=
  ⟨fun _ h => ⟨step_halted h, stepResult_halted h⟩, fun _ _ _ h hop ht => performAt_keeps_halt h hop ht,
    fun _ _ hi => ⟨_, resetWithAt_ok hi, rfl, rfl⟩⟩

/-! ### The framebuffer read port -/

/-- The bytes of `ReadFramebuffer()`, one by one (R231). -/
theorem getElem?_readFramebuffer (s : State) {k : Nat} (hk : k < 256) :
    (readFramebuffer s).1[k]? = some (s.byte (0xF00 + k)) := by
  rw [readFramebuffer, List.getElem?_map, List.getElem?_range (show k < Config.fbSize from hk)]
  rfl

/-- Column `c` of row `r` is the linear position `64 * r + c` (R62). -/
theorem pixel_eq_fbPixel (s : State) (c r : Nat) : pixel s c r = s.fbPixel (64 * r + c) := by
  have hbyte : 0xF00 + 8 * r + c / 8 = 0xF00 + (64 * r + c) / 8 := by omega
  have hbit : c % 8 = (64 * r + c) % 8 := by omega
  change (s.byte (0xF00 + 8 * r + c / 8)).getLsbD (c % 8) = _
  rw [hbyte, hbit, State.fbPixel]

/-- Settles O59: byte `8 * r + c div 8` of the 256 is the byte at that offset from 0xF00. -/
theorem framebufferReadPort : Obligations.FramebufferReadPort := by
  refine fun s => ⟨rfl, ?_, rfl, fun k hk => getElem?_readFramebuffer s hk,
    fun c r hc hr => ⟨?_, pixel_eq_fbPixel s c r⟩⟩
  · exact (List.length_map _).trans List.length_range
  · have hk : 8 * r + c / 8 < 256 := by omega
    rw [List.getD_eq_getElem?_getD, getElem?_readFramebuffer s hk, ← Nat.add_assoc]
    rfl

end Sys2Proof.Machine
end

section
/-! `Reset(image)` (70_reset_and_hazards.md R251, R253): the reset values of R48 and the contents of memory. -/

namespace Sys2Proof.Machine

/-- Every register is 0 at reset (R48). -/
@[simp] theorem getV_reset (r : RegIdx) : State.reset.getV r = 0 := Vector.getElem_replicate r.isLt

/-- No key is pressed at reset (R48). -/
@[simp] theorem keys_reset (k : RegIdx) : State.reset.keys[k.val] = false := Vector.getElem_replicate k.isLt

/-- Settles O55: memory is `Memory.loaded`, read inside and outside the image; every other element is that of
`State.reset`. -/
theorem resetLoadsImage : Obligations.ResetLoadsImage :=
  ⟨fun _ _ _ hlong => resetWithAt_refused hlong, fun _ _ _ hfont hfits =>
    ⟨_, resetWithAt_ok hfits, fun _ hk => Memory.read_loaded_image hfont hfits hk,
      fun _ ha => Memory.read_loaded_outside hfont hfits ha, getV_reset, keys_reset,
      rfl, rfl, rfl, rfl, rfl, rfl, rfl, rfl, rfl, rfl⟩⟩

end Sys2Proof.Machine
end
